-- ==== Sys2Proof/Word.lean ====
section
/-! DEFINITION. The widths of the engine's values. Every value is an unsigned number of a stated width (spec R5); what is
done with the bits (slices, byte order) stands in Machine/Bytes.lean. -/

namespace Sys2Proof

/-- A byte of a buffer or of a header (R5, R44). -/
abbrev Byte := BitVec 8

/-- A 16-bit field: lengths, ports, checksums (R14, R61, R63). -/
abbrev Half := BitVec 16

/-- A 32-bit register, address or command word (R14, R70). -/
abbrev Word := BitVec 32

/-- A 4-bit field: version, IHL, data offset (R61, R63), and a completion code's number (R170). -/
abbrev Nibble := BitVec 4

end Sys2Proof
end

