-- ==== Sys2Proof/Syntax.lean ====
section
/-! DEFINITION. The twelve commands of spec R73, one constructor for each row of spec/opcode_table.json. A command word carries no
operand (R70, R72): every operand is in a register of the context, so no constructor has an argument. -/

namespace Sys2Proof

/-- The commands (R73). -/
inductive Instr where
  /-- `NOP`, R150 -/
  | nop
  /-- `ENC_IP`, R94 -/
  | encIp
  /-- `DEC_IP`, R95 -/
  | decIp
  /-- `ENC_TCP`, R96 -/
  | encTcp
  /-- `DEC_TCP`, R97 -/
  | decTcp
  /-- `CSUM`, R113 -/
  | csum
  /-- `PSH`, R115 -/
  | psh
  /-- `FINIT`, R126 -/
  | finit
  /-- `GEN`, R128 -/
  | gen
  /-- `ICLS`, R142 -/
  | icls
  /-- `TXOPEN`, R151 -/
  | txopen
  /-- `TX`, R152 -/
  | tx
  deriving DecidableEq, Repr

end Sys2Proof
end

