-- ==== Sys2Proof/WellFormed.lean ====
section
/-! DEFINITION. What is well formed. A command has no operands, so every `Instr` is well formed; what can be ill formed is a
command WORD, by either clause of spec R70 and R71. -/

namespace Sys2Proof

/-- Every command is well formed: it has no operand field that could be out of range (R70, R72). -/
def Instr.wellFormed : Instr → Bool
  | .nop => true
  | .encIp => true
  | .decIp => true
  | .encTcp => true
  | .decTcp => true
  | .csum => true
  | .psh => true
  | .finit => true
  | .gen => true
  | .icls => true
  | .txopen => true
  | .tx => true

/-- Bits 31:8 of a command word, the field `zero` of R70, are 0. -/
def zeroFieldOk (w : Word) : Bool := w.extractLsb' 8 24 == 0

/-- The field `op` of R70 is one of the twelve opcodes 0x00 to 0x0B of R73. -/
def opcodeOk (w : Word) : Bool := (w.extractLsb' 0 8).toNat < 12

/-- A command word that names a command (R71, R74). -/
def wordWellFormed (w : Word) : Bool := zeroFieldOk w && opcodeOk w

end Sys2Proof
end

