-- ==== Sys2Proof/Decode.lean ====
section
/-! DEFINITION. Decoding and encoding of command words (spec R70 to R74). The word is the 32-bit number written to `CMD`; no byte
order of it exists (R43). -/

namespace Sys2Proof

/-- Why a word is no command (R71). Both give the completion code `ILLEGAL`; the model tells them apart by name. -/
inductive DecodeError where
  /-- one of bits 31:8 is set -/
  | upperBitsSet
  /-- bits 7:0 hold 0x0C to 0xFF -/
  | reservedOpcode
  deriving DecidableEq, Repr

/-- The opcode map of R73, from the opcode. -/
def instrOfOpcode (op : Byte) : Option Instr :=
  match op.toNat with
  | 0x00 => some .nop
  | 0x01 => some .encIp
  | 0x02 => some .decIp
  | 0x03 => some .encTcp
  | 0x04 => some .decTcp
  | 0x05 => some .csum
  | 0x06 => some .psh
  | 0x07 => some .finit
  | 0x08 => some .gen
  | 0x09 => some .icls
  | 0x0A => some .txopen
  | 0x0B => some .tx
  | _ => none

/-- The decoder of R71: total, each of the 2^32 words names one command or is illegal. -/
def decode (w : Word) : Except DecodeError Instr :=
  if w.extractLsb' 8 24 = 0 then
    match instrOfOpcode (w.extractLsb' 0 8) with
    | some i => .ok i
    | none => .error .reservedOpcode
  else .error .upperBitsSet

/-- The opcode map of R73, from the command. -/
def opcode : Instr → Byte
  | .nop => 0x00
  | .encIp => 0x01
  | .decIp => 0x02
  | .encTcp => 0x03
  | .decTcp => 0x04
  | .csum => 0x05
  | .psh => 0x06
  | .finit => 0x07
  | .gen => 0x08
  | .icls => 0x09
  | .txopen => 0x0A
  | .tx => 0x0B

/-- The command word of R70: bits 31:8 zero, the opcode in bits 7:0. -/
def encode (i : Instr) : Word := (opcode i).setWidth 32

/-- The 32-bit command word of an instruction given as its low `nbits` bits, the bits above them 0. `none` where more
than one command word is given. -/
def tableWord (nbits w : Nat) : Option Word :=
  if nbits ≤ 32 then some (BitVec.ofNat 32 (w % 2 ^ nbits)) else none

/-- What the decoder reads from a row of the opcode table (log entry 15). -/
def decodeTableWord (nbits w : Nat) : Option Instr :=
  match tableWord nbits w with
  | none => none
  | some v =>
    match decode v with
    | .ok i => some i
    | .error _ => none

end Sys2Proof
end

