-- ==== Sys2Proof/Machine/Bytes.lean ====
section
/-! DEFINITION. Byte strings and the big-endian primitives of spec R5 and R42. -/

namespace Sys2Proof.Machine

/-- Two nibbles as one byte, `hi*16 + lo` (R62, R64). -/
def joinNibbles (hi lo : Nibble) : Byte := hi ++ lo

/-- Two bytes as one 16-bit value, `hi*256 + lo` (R5). -/
def joinBytes (hi lo : Byte) : Half := hi ++ lo

/-- Two 16-bit values as one 32-bit value, `hi*2^16 + lo` (R5). -/
def joinHalves (hi lo : Half) : Word := hi ++ lo

/-- `be16(v)` of R5: the more significant byte first. -/
def be16 (v : Half) : List Byte := [v.extractLsb' 8 8, v.extractLsb' 0 8]

/-- `be32(v)` of R5: the most significant byte first. -/
def be32 (v : Word) : List Byte :=
  [v.extractLsb' 24 8, v.extractLsb' 16 8, v.extractLsb' 8 8, v.extractLsb' 0 8]

/-- `s[i]` of R5. Every use has `i` below the length of `s`. -/
def byteAt (s : List Byte) (i : Nat) : Byte := s.getD i 0

/-- `u16(s, i)` of R5: `s[i]*256 + s[i+1]`. -/
def u16 (s : List Byte) (i : Nat) : Half := joinBytes (byteAt s i) (byteAt s (i + 1))

/-- `u32(s, i)` of R5: `s[i]*2^24 + s[i+1]*2^16 + s[i+2]*2^8 + s[i+3]`. -/
def u32 (s : List Byte) (i : Nat) : Word := joinHalves (u16 s i) (u16 s (i + 2))

end Sys2Proof.Machine
end

