-- ==== Sys2Proof/Config.lean ====
section
/-! DEFINITION. The parameters of spec R4 and the free values. The parameters that the step relation reads are one record, `Params`, so that a
statement can be for every one of them. What the spec leaves OPEN, or calls unspecified, is an uninterpreted constant: no proof can
learn its value, so a statement holds whatever it is. -/

namespace Sys2Proof

/-- PARAMETERS of the step relation (R4, R25): arguments of the model. The record holds no others: `NCTX` is the length of `State.ctxs`, `PRIV` is
`State.priv`, and `PKT_CAP` is fixed (`Config.pktCap`). -/
structure Params where
  /-- `BUF_CAP - 44`: R4 lets `BUF_CAP` be 44 to 65536 -/
  bufRoom : Fin 65493
  /-- `PROTO_ICMP` -/
  protoIcmp : Byte
  /-- `PROTO_TCP` -/
  protoTcp : Byte
  /-- `IP_VERSION` -/
  ipVersion : Nibble
  /-- `DEF_TTL` -/
  defTtl : Byte
  /-- `DEF_TOS` -/
  defTos : Byte
  /-- `DEF_ID` -/
  defId : Half
  /-- `DEF_FRAG` -/
  defFrag : Half
  /-- `DEF_WINDOW` -/
  defWindow : Half
  deriving DecidableEq, Repr

/-- `BUF_CAP` of R4: bytes in each context's `BUF`, 44 to 65536 (log entry 9). -/
def Params.bufCap (p : Params) : Nat := 44 + p.bufRoom.val

namespace Config

/-- How many contexts there are beyond the first. R4 leaves `NCTX` OPEN, at least 1 (log entry 6). -/
opaque extraContexts : Nat

/-- `NCTX` of R4: the number of contexts, at least 1. -/
def nctx : Nat := Nat.succ extraContexts

/-- `PKT_CAP` of R4, fixed: bytes in each context's `PKT`. -/
def pktCap : Nat := 65535

/-- `PRIV` of R4 and R23 in the first run: OPEN (log entry 7). -/
opaque priv : Bool

/-- `DEF_TOS` of R4: OPEN (log entry 8). -/
opaque defTos : Byte

/-- `DEF_ID` of R4: OPEN (log entry 8). -/
opaque defId : Half

/-- `DEF_FRAG` of R4: OPEN (log entry 8). -/
opaque defFrag : Half

/-- `DEF_WINDOW` of R4: OPEN (log entry 8). -/
opaque defWindow : Half

/-- The parameters at the values of R4's table: `BUF_CAP` 65536, `PROTO_ICMP` 1, `PROTO_TCP` 6, `IP_VERSION` 4, `DEF_TTL` 255; uninterpreted where
it says OPEN (log entries 8 and 9). Only `State.reset` uses them: every meaning reads `State.par`. -/
def params : Params :=
  { bufRoom := 65492, protoIcmp := 1, protoTcp := 6, ipVersion := 4, defTtl := 255
    defTos := defTos, defId := defId, defFrag := defFrag, defWindow := defWindow }

/-- FREE VALUE. `bufByte epoch ctx i`: the unspecified byte `i` of `BUF` of context `ctx` after the reset numbered
`epoch` (R192, R55, U2; log entry 1). -/
opaque bufByte : Nat → Nat → Nat → Byte

/-- FREE VALUE. `pktByte epoch ctx gens i`: the unspecified byte `i` of `PKT` of context `ctx` after the reset numbered
`epoch` and `gens` successful `GEN` commands since (R192, R20, U2; log entry 2). -/
opaque pktByte : Nat → Nat → Nat → Nat → Byte

/-- FREE VALUE. The arbiter's `n`-th own pick, taken modulo the number of pending contexts (R153, U3; log entry 5). -/
opaque arbPick : Nat → Nat

end Config

end Sys2Proof
end

