-- ==== Sys2Proof/Machine/State.lean ====
section
/-! DEFINITION. The state of the engine (spec 10_state.md), as plain data, and its value after reset (R190 to R193). -/

namespace Sys2Proof.Machine

/-- Why the machine stops. -/
inductive Fault where
  /-- Raised by a host input, and by a command run on its own, that names a context `c` with `c >= NCTX`: the engine has no
  such host port (R10). SAFE: no run of the hardware holds such an access (log entry 12). -/
  | noContext
  deriving DecidableEq, Repr

/-- Why an instruction has no meaning. -/
inductive Refusal where
  /-- Raised by an arm of `exec` that has no meaning yet. SAFE: the model stops. No arm raises it: all twelve commands have
  their meaning. -/
  | notModelled (mnemonic : String)
  deriving DecidableEq, Repr

/-- The completion codes of R170; `Completion.code` gives their numbers. Codes 9 to 15 are never produced. -/
inductive Completion where
  | ok
  | malformed
  | illegal
  | range
  | noPriv
  | txNotOpen
  | txBusy
  | notInit
  | noPkt
  deriving DecidableEq, Repr

/-- An IPv4 header: the eleven fields of R14 and R61 with their widths. -/
structure IpHdr where
  ver : Nibble
  ihl : Nibble
  tos : Byte
  len : Half
  id : Half
  frag : Half
  ttl : Byte
  proto : Byte
  csum : Half
  src : Word
  dst : Word
  deriving DecidableEq, Repr

/-- A TCP header: the nine fields of R14 and R63 with their widths. -/
structure TcpHdr where
  sport : Half
  dport : Half
  seq : Word
  ack : Word
  doff : Nibble
  flags : Byte
  win : Half
  csum : Half
  urg : Half
  deriving DecidableEq, Repr

/-- The specified bytes of a buffer: position and byte, positions strictly rising (`Memory.wf`). A position that is not
listed holds no specified value (R192); what reading it gives is `Ctx.bufByte`, `Ctx.pktByte`. -/
abbrev Memory := List Host.Cell

/-- A packet in the transmit slot (R21): `TXS` without `valid`, which is whether the slot holds one. -/
structure Slot where
  dst : Word
  len : Half
  bytes : List Byte
  deriving DecidableEq, Repr

/-- One record of `WIRE` (R22, R69). -/
structure WireRecord where
  ctx : Nat
  dst : Word
  dport : Half
  bytes : List Byte
  deriving DecidableEq, Repr

/-- MODEL'S OWN. The key of a context's unspecified buffer bytes: the number of resets before this run, the context's index,
the number of successful `GEN` commands since the reset (log entries 1 and 2). No command reads it except to look at an
unspecified byte. -/
structure Fill where
  epoch : Nat
  ctx : Nat
  gens : Nat
  deriving DecidableEq, Repr

/-- One context: the state that exists once per context (R12). -/
structure Ctx where
  /-- bank `H`, the `H_IP_*` registers (R14) -/
  hIp : IpHdr
  /-- bank `H`, the `H_TCP_*` registers (R14) -/
  hTcp : TcpHdr
  /-- bank `F`, the `F_IP_*` registers (R15) -/
  fIp : IpHdr
  /-- bank `F`, the `F_TCP_*` registers (R15) -/
  fTcp : TcpHdr
  /-- `ARG_OFF` (R16) -/
  argOff : Word
  /-- `ARG_LEN` (R16) -/
  argLen : Word
  /-- `PH_SRC` (R16) -/
  phSrc : Word
  /-- `PH_DST` (R16) -/
  phDst : Word
  /-- `PH_PROTO` (R16) -/
  phProto : Byte
  /-- `PH_LEN` (R16) -/
  phLen : Half
  /-- `FI_SRC` (R16) -/
  fiSrc : Word
  /-- `FI_DST` (R16) -/
  fiDst : Word
  /-- `FI_SPORT` (R16) -/
  fiSport : Half
  /-- `FI_DPORT` (R16) -/
  fiDport : Half
  /-- `TX_DST` (R16) -/
  txDst : Word
  /-- `CMD`: the last word written (R17) -/
  cmd : Word
  /-- `STATUS.CC` (R18) -/
  cc : Completion
  /-- `STATUS.FVALID` (R18) -/
  fvalid : Bool
  /-- `STATUS.TXEN` (R18) -/
  txen : Bool
  /-- `STATUS.FATAL` (R18) -/
  fatal : Bool
  /-- `RES_CSUM` (R17) -/
  resCsum : Half
  /-- `RES_CLS` (R17) -/
  resCls : BitVec 2
  /-- `PKT_LEN` (R17) -/
  pktLen : Half
  /-- `BUF` (R19): the bytes written since reset -/
  buf : Memory
  /-- `PKT` (R20): the bytes of the latest generated packet -/
  pkt : Memory
  /-- `TXS` (R21): `none` is `valid = false`; `STATUS.TXPEND` is this field too (log entry 10) -/
  slot : Option Slot
  /-- MODEL'S OWN (log entries 1 and 2) -/
  fill : Fill
  deriving DecidableEq, Repr

/-- A host access to a context's address space (R41, R44): its width in bits, the offset, and for a write the data. -/
inductive Access where
  | read (width : Nat) (addr : Nat)
  | write (width : Nat) (addr : Nat) (data : Word)
  deriving DecidableEq, Repr

/-- What the host port answers to an access: a write was done, a read gave a value, or the error response of R45. -/
inductive Resp where
  | done
  | value (v : Word)
  | error
  deriving DecidableEq, Repr

/-- One step of an agent (R10): an access at the host port of context `ctx`, an arbiter step that picks context `ctx`
(R153), a reset after which `PRIV` is `priv` (R190). -/
inductive Input where
  | host (ctx : Nat) (access : Access)
  | arb (ctx : Nat)
  | reset (priv : Bool)
  deriving DecidableEq, Repr

/-- The state of the whole engine. -/
structure State where
  /-- the contexts `0 .. NCTX-1` (R12) -/
  ctxs : List Ctx
  /-- `WIRE` (R22) -/
  wire : List WireRecord
  /-- `PRIV` (R23) -/
  priv : Bool
  /-- PARAMETERS (R4), arguments of the step relation and no state of the engine (R25): they stand here because `step` has one argument. No step
  writes them (log entry 9). -/
  par : Params
  /-- MODEL'S OWN: the steps to come, in order (log entry 3) -/
  inputs : List Input
  /-- MODEL'S OWN: the context of the latest host access (log entry 11) -/
  cur : Nat
  /-- MODEL'S OWN: the response to the latest host access (log entry 11) -/
  resp : Option Resp
  /-- MODEL'S OWN: the number of resets after the first (log entry 1) -/
  epoch : Nat
  /-- MODEL'S OWN: the number of picks the arbiter made by itself (log entry 5) -/
  picks : Nat
  deriving DecidableEq, Repr

/-- An IPv4 header with every field 0 (R191). -/
def IpHdr.zero : IpHdr :=
  { ver := 0, ihl := 0, tos := 0, len := 0, id := 0, frag := 0, ttl := 0, proto := 0, csum := 0, src := 0, dst := 0 }

/-- A TCP header with every field 0 (R191). -/
def TcpHdr.zero : TcpHdr :=
  { sport := 0, dport := 0, seq := 0, ack := 0, doff := 0, flags := 0, win := 0, csum := 0, urg := 0 }

/-- Context `c` right after the reset numbered `epoch`: every register 0, the slot invalid, no buffer byte specified
(R191, R192). -/
def Ctx.reset (epoch c : Nat) : Ctx :=
  { hIp := .zero, hTcp := .zero, fIp := .zero, fTcp := .zero
    argOff := 0, argLen := 0, phSrc := 0, phDst := 0, phProto := 0, phLen := 0
    fiSrc := 0, fiDst := 0, fiSport := 0, fiDport := 0, txDst := 0
    cmd := 0, cc := .ok, fvalid := false, txen := false, fatal := false
    resCsum := 0, resCls := 0, pktLen := 0
    buf := [], pkt := [], slot := none
    fill := { epoch := epoch, ctx := c, gens := 0 } }

/-- `n` contexts after a reset, the first with index `c` (R190: all contexts come out of reset together). -/
def resetCtxs (epoch c : Nat) : Nat → List Ctx
  | 0 => []
  | n + 1 => Ctx.reset epoch c :: resetCtxs epoch (c + 1) n

/-- An engine with the parameters `par`, `PRIV` = `priv` and `NCTX` = `n` right after the reset that starts its first run (R190 to R193): `WIRE` empty, no
host access pending. -/
def State.resetWith (par : Params) (priv : Bool) (n : Nat) : State :=
  { ctxs := resetCtxs 0 0 n
    wire := []
    priv := priv
    par := par
    inputs := []
    cur := 0
    resp := none
    epoch := 0
    picks := 0 }

/-- The engine right after that reset with the parameters at the values of R4's table, uninterpreted where the table says OPEN. -/
def State.reset : State := State.resetWith Config.params Config.priv Config.nctx

end Sys2Proof.Machine
end

