-- ==== Sys2Proof/Machine/Ops.lean ====
section
/-! DEFINITION. The named operations over buffers, contexts and the state, and the one way a command ends (spec R6, R170, R171). The
engine has no trap: `raise` is what stands in the place of taking an exception, and nothing returns from one (R176). -/

namespace Sys2Proof.Machine

/-- What a step, a command or an access gives. -/
abbrev Out := Host.Outcome State Fault Refusal

/-- The specified byte at position `a`, if there is one. -/
def Memory.read : Memory → Nat → Option Byte
  | [], _ => none
  | (b, v) :: m, a => if a = b then some v else Memory.read m a

/-- The buffer with byte `v` at position `a`. The list stays strictly rising. -/
def Memory.write : Memory → Nat → Byte → Memory
  | [], a, v => [(a, v)]
  | (b, u) :: m, a, v =>
    if a < b then (a, v) :: (b, u) :: m
    else if a = b then (a, v) :: m
    else (b, u) :: Memory.write m a v

/-- The buffer with the bytes `s` at positions `a`, `a+1`, … -/
def Memory.writeBytes (m : Memory) (a : Nat) : List Byte → Memory
  | [] => m
  | v :: s => Memory.writeBytes (Memory.write m a v) (a + 1) s

/-- The buffer that holds the bytes `s` from position `a` on and nothing else. -/
def Memory.ofBytes (a : Nat) : List Byte → Memory
  | [] => []
  | v :: s => (a, v) :: Memory.ofBytes (a + 1) s

/-- The positions are strictly rising and all at least `lo` and below `cap`. -/
def Memory.wfFrom (lo cap : Nat) : Memory → Bool
  | [] => true
  | (b, _) :: m => decide (lo ≤ b) && decide (b < cap) && Memory.wfFrom (b + 1) cap m

/-- The canonical form of a buffer of `cap` bytes: positions strictly rising, each inside the buffer. An unlisted position
holds no specified value, so no listed byte repeats what an unlisted one reads as (log entry 17). -/
def Memory.wf (cap : Nat) (m : Memory) : Bool := Memory.wfFrom 0 cap m

/-- Byte `i` of `BUF`: the specified one, else the free value of R192 (R19, R55). -/
def Ctx.bufByte (x : Ctx) (i : Nat) : Byte :=
  match x.buf.read i with
  | some v => v
  | none => Config.bufByte x.fill.epoch x.fill.ctx i

/-- The unspecified byte `i` of `PKT` (R20, R192). -/
def Ctx.pktFree (x : Ctx) (i : Nat) : Byte := Config.pktByte x.fill.epoch x.fill.ctx x.fill.gens i

/-- Byte `i` of `PKT`: specified below `PKT_LEN` only (R20). -/
def Ctx.pktByte (x : Ctx) (i : Nat) : Byte :=
  if i < x.pktLen.toNat then
    match x.pkt.read i with
    | some v => v
    | none => x.pktFree i
  else x.pktFree i

/-- `MemRead(c, a, n)` of R6: `BUF[a..a+n)`. -/
def Ctx.memRead (x : Ctx) (a n : Nat) : List Byte := (List.range n).map fun i => x.bufByte (a + i)

/-- `MemWrite(c, a, n, s)` of R6: the bytes `s` to `BUF[a..a+n)`. -/
def Ctx.memWrite (x : Ctx) (a : Nat) (s : List Byte) : Ctx := { x with buf := x.buf.writeBytes a s }

/-- `PKT[0..PKT_LEN)` (R20, R152). -/
def Ctx.packet (x : Ctx) : List Byte := (List.range x.pktLen.toNat).map fun i => x.pktByte i

/-- `complete(CC)` of R6: the command ends with this completion code. -/
def Ctx.complete (x : Ctx) (cc : Completion) : Ctx := { x with cc := cc }

/-- `raise <Name>` of R6: the command completes with the code and changes nothing else (R171). -/
def Ctx.raise (x : Ctx) (cc : Completion) : Ctx := x.complete cc

/-- `raise NOPRIV`, which also sets the sticky `STATUS.FATAL` (R174, R151, R152). -/
def Ctx.raiseNoPriv (x : Ctx) : Ctx := { x with fatal := true }.raise .noPriv

/-- The state with context `c` replaced. -/
def State.setCtx (s : State) (c : Nat) (x : Ctx) : State := { s with ctxs := s.ctxs.set c x }

/-- Run a command's effect on the context whose host port is in use. A command reads and writes state of that context
only, and the inputs and parameters (R12). -/
def onCtx (s : State) (f : Ctx → Ctx) : Out :=
  match s.ctxs[s.cur]? with
  | none => .fault .noContext
  | some x => .next (s.setCtx s.cur (f x))

end Sys2Proof.Machine
end

