-- ==== Sys2Proof/Machine/Operands.lean ====
section
/-! DEFINITION. How a command names its buffer (spec R46, R72): `ARG_OFF` and a length, checked without wrap-around. No operand is
scaled, shifted or sign-extended (R72). -/

namespace Sys2Proof.Machine

/-- The check of R46, `ARG_OFF + n > BUF_CAP`: the `n` bytes from `ARG_OFF` on do not lie inside `BUF`. The sum is of natural
numbers, so it cannot wrap. -/
def Ctx.outside (p : Params) (x : Ctx) (n : Nat) : Bool := decide (p.bufCap < x.argOff.toNat + n)

/-- The command's input `BUF[ARG_OFF..ARG_OFF+ARG_LEN)` (R72). -/
def Ctx.operand (x : Ctx) : List Byte := x.memRead x.argOff.toNat x.argLen.toNat

/-- The command's output at `ARG_OFF` (R72), refused with `RANGE` where it does not fit (R46). -/
def Ctx.emit (p : Params) (x : Ctx) (s : List Byte) : Ctx :=
  if x.outside p s.length then x.raise .range else (x.memWrite x.argOff.toNat s).complete .ok

end Sys2Proof.Machine
end

