-- ==== Sys2Proof/Machine/Checksum.lean ====
section
/-! DEFINITION. The checksum unit (spec 41_checksum.md): the Internet checksum of R110 in its four steps, the pseudo-header of R114, and
the commands `CSUM` and `PSH`. -/

namespace Sys2Proof.Machine

/-- Step 1 of R110: one trailing zero byte where the length is odd. -/
def padEven (s : List Byte) : List Byte := if s.length % 2 = 0 then s else s ++ [0]

/-- Step 2 of R110: the sum of the 16-bit big-endian words, without loss. A last single byte is no word: `padEven` leaves
none. -/
def sumWords : List Byte → Nat
  | a :: b :: s => (joinBytes a b).toNat + sumWords s
  | _ => 0

/-- Step 3 of R110: fold the carries while the sum exceeds 0xFFFF. `fuel` bounds the number of folds; every fold lowers the
sum, so the sum itself is fuel enough. -/
def foldCarry : Nat → Nat → Nat
  | 0, sum => sum
  | fuel + 1, sum => if sum ≤ 0xFFFF then sum else foldCarry fuel (sum % 65536 + sum / 65536)

/-- The folded word sum of a byte string: steps 1 to 3 of R110. -/
def foldedSum (s : List Byte) : Nat := foldCarry (sumWords (padEven s)) (sumWords (padEven s))

/-- `checksum(s)` of R110: step 4, the one's complement of the folded sum. It is never adjusted (R111(e)). -/
def checksum (s : List Byte) : Half := BitVec.ofNat 16 (0xFFFF - foldedSum s)

/-- `pseudo(src, dst, proto, seglen)` of R114, laid out as R66 says. -/
def pseudo (src dst : Word) (proto : Byte) (seglen : Half) : List Byte :=
  be32 src ++ be32 dst ++ [0, proto] ++ be16 seglen

/-- R113. The result goes to `RES_CSUM` only, never into the buffer. -/
def Ctx.csum (p : Params) (x : Ctx) : Ctx :=
  if x.outside p x.argLen.toNat then x.raise .range
  else { x with resCsum := checksum x.operand }.complete .ok

/-- R115. -/
def Ctx.psh (p : Params) (x : Ctx) : Ctx := x.emit p (pseudo x.phSrc x.phDst x.phProto x.phLen)

/-- `CSUM`, R113. -/
def execCsum (s : State) : Out := onCtx s (Ctx.csum s.par)

/-- `PSH`, R115. -/
def execPsh (s : State) : Out := onCtx s (Ctx.psh s.par)

end Sys2Proof.Machine
end

