-- ==== Sys2Proof/Machine/Codec.lean ====
section
/-! DEFINITION. The header codec (spec 40_codec.md): the pure functions of R90 to R93 over the layouts of R61 and R63, and the four
commands that wrap them. No field is checked, IHL and data offset included (R99). -/

namespace Sys2Proof.Machine

/-- `encode_ip(h)` of R90; byte 0 is `ver*16 + ihl` (R62). -/
def encodeIp (h : IpHdr) : List Byte :=
  [joinNibbles h.ver h.ihl, h.tos] ++ be16 h.len ++ be16 h.id ++ be16 h.frag
    ++ [h.ttl, h.proto] ++ be16 h.csum ++ be32 h.src ++ be32 h.dst

/-- The fields of the first 20 bytes of `s` (R91). -/
def ipFields (s : List Byte) : IpHdr :=
  { ver := (byteAt s 0).extractLsb' 4 4
    ihl := (byteAt s 0).extractLsb' 0 4
    tos := byteAt s 1
    len := u16 s 2
    id := u16 s 4
    frag := u16 s 6
    ttl := byteAt s 8
    proto := byteAt s 9
    csum := u16 s 10
    src := u32 s 12
    dst := u32 s 16 }

/-- `decode_ip(s)` of R91; `none` is the failure `MalformedHeader`, on length alone (R173). -/
def decodeIp (s : List Byte) : Option IpHdr := if s.length < 20 then none else some (ipFields s)

/-- `encode_tcp(t)` of R92; byte 12 is `doff*16`, its low nibble 0 (R64). -/
def encodeTcp (t : TcpHdr) : List Byte :=
  be16 t.sport ++ be16 t.dport ++ be32 t.seq ++ be32 t.ack
    ++ [joinNibbles t.doff 0, t.flags] ++ be16 t.win ++ be16 t.csum ++ be16 t.urg

/-- The fields of the first 20 bytes of `s` (R93); the low nibble of byte 12 is dropped (R64). -/
def tcpFields (s : List Byte) : TcpHdr :=
  { sport := u16 s 0
    dport := u16 s 2
    seq := u32 s 4
    ack := u32 s 8
    doff := (byteAt s 12).extractLsb' 4 4
    flags := byteAt s 13
    win := u16 s 14
    csum := u16 s 16
    urg := u16 s 18 }

/-- `decode_tcp(s)` of R93; `none` is the failure `MalformedHeader`. -/
def decodeTcp (s : List Byte) : Option TcpHdr := if s.length < 20 then none else some (tcpFields s)

/-- R94. -/
def Ctx.encIp (p : Params) (x : Ctx) : Ctx := x.emit p (encodeIp x.hIp)

/-- R95. -/
def Ctx.decIp (p : Params) (x : Ctx) : Ctx :=
  if x.outside p x.argLen.toNat then x.raise .range
  else if x.argLen.toNat < 20 then x.raise .malformed
  else { x with hIp := ipFields (x.memRead x.argOff.toNat 20) }.complete .ok

/-- R96. -/
def Ctx.encTcp (p : Params) (x : Ctx) : Ctx := x.emit p (encodeTcp x.hTcp)

/-- R97. -/
def Ctx.decTcp (p : Params) (x : Ctx) : Ctx :=
  if x.outside p x.argLen.toNat then x.raise .range
  else if x.argLen.toNat < 20 then x.raise .malformed
  else { x with hTcp := tcpFields (x.memRead x.argOff.toNat 20) }.complete .ok

/-- `ENC_IP`, R94. -/
def execEncIp (s : State) : Out := onCtx s (Ctx.encIp s.par)

/-- `DEC_IP`, R95. -/
def execDecIp (s : State) : Out := onCtx s (Ctx.decIp s.par)

/-- `ENC_TCP`, R96. -/
def execEncTcp (s : State) : Out := onCtx s (Ctx.encTcp s.par)

/-- `DEC_TCP`, R97. -/
def execDecTcp (s : State) : Out := onCtx s (Ctx.decTcp s.par)

end Sys2Proof.Machine
end

