-- ==== Sys2Proof/Machine/Factory.lean ====
section
/-! DEFINITION. The packet factory (spec 42_factory.md): `FINIT` loads bank `F` (R126), `GEN` makes a packet from it and fills in the TCP
checksum (R128). -/

namespace Sys2Proof.Machine

/-- The longest payload `GEN` takes (R128, R129(c)): `40 + 65495 = 65535 = PKT_CAP`. -/
def maxPayload : Nat := 65495

/-- What `FINIT` loads (R126): the twenty registers of bank `F` and `FVALID`. -/
def Ctx.loadFactory (p : Params) (x : Ctx) : Ctx :=
  { x with
    fIp :=
      { ver := p.ipVersion, ihl := 5, tos := p.defTos, len := 0, id := p.defId, frag := p.defFrag
        ttl := p.defTtl, proto := p.protoTcp, csum := 0, src := x.fiSrc, dst := x.fiDst }
    fTcp :=
      { sport := x.fiSport, dport := x.fiDport, seq := 0, ack := 0, doff := 5, flags := 0, win := p.defWindow
        csum := 0, urg := 0 }
    fvalid := true }

/-- R126. -/
def Ctx.finit (p : Params) (x : Ctx) : Ctx := (x.loadFactory p).complete .ok

/-- Steps 1 to 4 of R128: the checksum over pseudo-header, TCP header with a zero checksum field, and payload. The protocol is
the constant `PROTO_TCP` and the header length the constant 20 (R129). -/
def genChecksum (p : Params) (ip : IpHdr) (tcp : TcpHdr) (payload : List Byte) : Half :=
  checksum (pseudo ip.src ip.dst p.protoTcp (BitVec.ofNat 16 (20 + payload.length))
    ++ encodeTcp { tcp with csum := 0 } ++ payload)

/-- Steps 5 to 8 of R128: the packet, and the state that holds it. `PKT` holds exactly the new packet: bytes beyond it have no
specified value (R20; log entry 18). -/
def Ctx.genPacket (p : Params) (x : Ctx) (payload : List Byte) : Ctx :=
  let tcp := { x.fTcp with csum := genChecksum p x.fIp x.fTcp payload }
  { x with
    fTcp := tcp
    pkt := Memory.ofBytes 0 (encodeIp x.fIp ++ encodeTcp tcp ++ payload)
    pktLen := BitVec.ofNat 16 (40 + payload.length)
    fill := { x.fill with gens := x.fill.gens + 1 } }

/-- R128, the checks in the order of R172. -/
def Ctx.gen (p : Params) (x : Ctx) : Ctx :=
  if x.fvalid = false then x.raise .notInit
  else if x.outside p x.argLen.toNat then x.raise .range
  else if maxPayload < x.argLen.toNat then x.raise .range
  else (x.genPacket p x.operand).complete .ok

/-- `FINIT`, R126. -/
def execFinit (s : State) : Out := onCtx s (Ctx.finit s.par)

/-- `GEN`, R128. -/
def execGen (s : State) : Out := onCtx s (Ctx.gen s.par)

end Sys2Proof.Machine
end

