-- ==== Sys2Proof/Machine/Icmp.lean ====
section
/-! DEFINITION. The ICMP classifier (spec 43_icmp.md): `classify` of R140 and the command `ICLS`. -/

namespace Sys2Proof.Machine

/-- The classifier's three results (R141). -/
inductive Classification where
  | notApplicable
  | error
  | filtered
  deriving DecidableEq, Repr

/-- Their encoding in `RES_CLS` (R141); 3 is never produced. -/
def Classification.code : Classification → BitVec 2
  | .notApplicable => 0
  | .error => 1
  | .filtered => 2

/-- The filtering-relevant codes of a destination-unreachable message (R143). -/
def filteringCodes : List Byte := [1, 2, 3, 9, 10, 13]

/-- The type number of "destination unreachable" (R140). -/
def destinationUnreachable : Byte := 3

/-- `classify(d)` of R140; `none` is the failure `MalformedHeader`. Type and code are bytes 20 and 21 whatever the IHL nibble
says (R145). -/
def classify (p : Params) (d : List Byte) : Option Classification :=
  if d.length < 20 then none
  else if byteAt d 9 ≠ p.protoIcmp then some .notApplicable
  else if d.length < 22 then none
  else if byteAt d 20 ≠ destinationUnreachable then some .error
  else if byteAt d 21 ∈ filteringCodes then some .filtered
  else some .error

/-- R142. Bank `H` is not written: the classifier's decode of the IP header is internal. -/
def Ctx.icls (p : Params) (x : Ctx) : Ctx :=
  if x.outside p x.argLen.toNat then x.raise .range
  else
    match classify p x.operand with
    | none => x.raise .malformed
    | some r => { x with resCls := r.code }.complete .ok

/-- `ICLS`, R142. -/
def execIcls (s : State) : Out := onCtx s (Ctx.icls s.par)

end Sys2Proof.Machine
end

