-- ==== Sys2Proof/Machine/Transmit.lean ====
section
/-! DEFINITION. The transmit path (spec 44_transmit.md): the commands `NOP`, `TXOPEN` and `TX`, and the arbiter step of R153. -/

namespace Sys2Proof.Machine

/-- R150. -/
def Ctx.nop (x : Ctx) : Ctx := x.complete .ok

/-- R151. `priv` is the input `PRIV`. -/
def Ctx.txopen (priv : Bool) (x : Ctx) : Ctx :=
  if priv = false then x.raiseNoPriv
  else { x with txen := true }.complete .ok

/-- R152, the checks in the order of R172. The slot gets a copy of the packet. -/
def Ctx.tx (priv : Bool) (x : Ctx) : Ctx :=
  if priv = false then x.raiseNoPriv
  else if x.txen = false then x.raise .txNotOpen
  else if x.pktLen = 0 then x.raise .noPkt
  else if x.slot.isSome then x.raise .txBusy
  else { x with slot := some { dst := x.txDst, len := x.pktLen, bytes := x.packet } }.complete .ok

/-- `NOP`, R150. -/
def execNop (s : State) : Out := onCtx s Ctx.nop

/-- `TXOPEN`, R151. -/
def execTxopen (s : State) : Out := onCtx s (Ctx.txopen s.priv)

/-- `TX`, R152. -/
def execTx (s : State) : Out := onCtx s (Ctx.tx s.priv)

/-- The arbiter's effect on the packet `p` of context `c` (R153): the record goes to the end of `WIRE`, whole and unchanged (R155),
with destination port 0 (R69), and the slot becomes invalid. `STATUS.CC` does not change. -/
def State.emitPacket (s : State) (c : Nat) (x : Ctx) (p : Slot) : State :=
  { s.setCtx c { x with slot := none } with
    wire := s.wire ++ [{ ctx := c, dst := p.dst, dport := 0, bytes := p.bytes }] }

/-- One arbiter step that picks context `c` (R153). It is enabled only where the slot of `c` is valid; elsewhere there is no step
to take and nothing changes (log entry 13). -/
def State.arbiter (s : State) (c : Nat) : State :=
  match s.ctxs[c]? with
  | none => s
  | some x =>
    match x.slot with
    | none => s
    | some p => s.emitPacket c x p

/-- The indices, from `c` on, of the contexts whose slot is valid. -/
def pendingFrom (c : Nat) : List Ctx → List Nat
  | [] => []
  | x :: xs => if x.slot.isSome then c :: pendingFrom (c + 1) xs else pendingFrom (c + 1) xs

/-- The contexts the arbiter may pick (R153). -/
def State.pending (s : State) : List Nat := pendingFrom 0 s.ctxs

/-- What happens where no input is left: the arbiter, if a slot is valid, takes a step with a pick of its own, a free value (R153; log entry 5);
else the engine is quiescent (R210) and stays as it is. -/
def State.idle (s : State) : State :=
  match s.pending with
  | [] => s
  | c :: cs => { s.arbiter ((c :: cs).getD (Config.arbPick s.picks % (cs.length + 1)) c) with picks := s.picks + 1 }

end Sys2Proof.Machine
end

