-- ==== Sys2Proof/Machine/Dispatch.lean ====
section
/-! DEFINITION. Which meaning each command has. The command runs on the context `s.cur`. -/

namespace Sys2Proof.Machine

def exec (i : Instr) (s : State) : Host.Outcome State Fault Refusal :=
  match i with
  | .nop => Sys2Proof.Machine.execNop s
  | .encIp => Sys2Proof.Machine.execEncIp s
  | .decIp => Sys2Proof.Machine.execDecIp s
  | .encTcp => Sys2Proof.Machine.execEncTcp s
  | .decTcp => Sys2Proof.Machine.execDecTcp s
  | .csum => Sys2Proof.Machine.execCsum s
  | .psh => Sys2Proof.Machine.execPsh s
  | .finit => Sys2Proof.Machine.execFinit s
  | .gen => Sys2Proof.Machine.execGen s
  | .icls => Sys2Proof.Machine.execIcls s
  | .txopen => Sys2Proof.Machine.execTxopen s
  | .tx => Sys2Proof.Machine.execTx s

end Sys2Proof.Machine
end

