-- ==== Sys2Proof/Machine/Flags.lean ====
section
/-! DEFINITION. `STATUS`: the engine's only flags (spec R18) and the numbers of the completion codes (R170). There are no arithmetic
condition codes (R18). -/

namespace Sys2Proof.Machine

/-- The number of a completion code (R170). -/
def Completion.code : Completion → Nibble
  | .ok => 0
  | .malformed => 1
  | .illegal => 2
  | .range => 3
  | .noPriv => 4
  | .txNotOpen => 5
  | .txBusy => 6
  | .notInit => 7
  | .noPkt => 8

/-- `STATUS.TXPEND` is `TXS.valid` (R21). -/
def Ctx.txpend (x : Ctx) : Bool := x.slot.isSome

/-- `STATUS` as the host reads it: `FATAL` bit 7, `TXPEND` 6, `TXEN` 5, `FVALID` 4, `CC` 3:0 (R18). -/
def Ctx.status (x : Ctx) : Byte :=
  BitVec.ofBool x.fatal ++ BitVec.ofBool x.txpend ++ BitVec.ofBool x.txen ++ BitVec.ofBool x.fvalid ++ x.cc.code

end Sys2Proof.Machine
end

