-- ==== Sys2Proof/Machine/Regs.lean ====
section
/-! DEFINITION. The register map of a context (spec R14 to R18, R24, R41): names, offsets, widths, access rights, and the one way a
register is read or written by the host. -/

namespace Sys2Proof.Machine

/-- The two banks of header registers (R14, R15). -/
inductive Bank where
  | h
  | f
  deriving DecidableEq, Repr

/-- The IPv4 registers of a bank (R14). -/
inductive IpField where
  | ver | ihl | tos | len | id | frag | ttl | proto | csum | src | dst
  deriving DecidableEq, Repr

/-- The TCP registers of a bank (R14). -/
inductive TcpField where
  | sport | dport | seq | ack | doff | flags | win | csum | urg
  deriving DecidableEq, Repr

/-- The registers of a context (R14 to R17). -/
inductive Reg where
  | ip (b : Bank) (f : IpField)
  | tcp (b : Bank) (f : TcpField)
  | argOff | argLen | phSrc | phDst | phProto | phLen
  | fiSrc | fiDst | fiSport | fiDport | txDst
  | cmd | status | resCsum | resCls | pktLen
  deriving DecidableEq, Repr

/-- Bank `F` stands 0x080 above bank `H` (R15). -/
def bankBase : Bank → Nat
  | .h => 0x000
  | .f => 0x080

/-- Offsets of the IPv4 registers in their bank (R14). -/
def ipOffset : IpField → Nat
  | .ver => 0x000
  | .ihl => 0x004
  | .tos => 0x008
  | .len => 0x00C
  | .id => 0x010
  | .frag => 0x014
  | .ttl => 0x018
  | .proto => 0x01C
  | .csum => 0x020
  | .src => 0x024
  | .dst => 0x028

/-- Offsets of the TCP registers in their bank (R14). -/
def tcpOffset : TcpField → Nat
  | .sport => 0x030
  | .dport => 0x034
  | .seq => 0x038
  | .ack => 0x03C
  | .doff => 0x040
  | .flags => 0x044
  | .win => 0x048
  | .csum => 0x04C
  | .urg => 0x050

/-- The byte offset of a register (R14 to R17). -/
def regOffset : Reg → Nat
  | .ip b f => bankBase b + ipOffset f
  | .tcp b f => bankBase b + tcpOffset f
  | .argOff => 0x100
  | .argLen => 0x104
  | .phSrc => 0x108
  | .phDst => 0x10C
  | .phProto => 0x110
  | .phLen => 0x114
  | .fiSrc => 0x118
  | .fiDst => 0x11C
  | .fiSport => 0x120
  | .fiDport => 0x124
  | .txDst => 0x128
  | .cmd => 0x130
  | .status => 0x134
  | .resCsum => 0x138
  | .resCls => 0x13C
  | .pktLen => 0x140

def ipFieldList : List IpField := [.ver, .ihl, .tos, .len, .id, .frag, .ttl, .proto, .csum, .src, .dst]

def tcpFieldList : List TcpField := [.sport, .dport, .seq, .ack, .doff, .flags, .win, .csum, .urg]

/-- Every register (R14 to R17). -/
def regList : List Reg :=
  ipFieldList.map (Reg.ip .h) ++ tcpFieldList.map (Reg.tcp .h)
    ++ ipFieldList.map (Reg.ip .f) ++ tcpFieldList.map (Reg.tcp .f)
    ++ [.argOff, .argLen, .phSrc, .phDst, .phProto, .phLen, .fiSrc, .fiDst, .fiSport, .fiDport, .txDst]
    ++ [.cmd, .status, .resCsum, .resCls, .pktLen]

/-- The register at an offset; a reserved or unaligned offset has none (R24, R45). -/
def regAt (a : Nat) : Option Reg := regList.find? fun r => regOffset r == a

/-- The result registers and `STATUS` are read only, every other register is read and written by the host (R14 to R17). -/
def regWritable : Reg → Bool
  | .status => false
  | .resCsum => false
  | .resCls => false
  | .pktLen => false
  | _ => true

/-- An IPv4 register as read: zero-extended (R24). -/
def ipGet (h : IpHdr) : IpField → Word
  | .ver => h.ver.setWidth 32
  | .ihl => h.ihl.setWidth 32
  | .tos => h.tos.setWidth 32
  | .len => h.len.setWidth 32
  | .id => h.id.setWidth 32
  | .frag => h.frag.setWidth 32
  | .ttl => h.ttl.setWidth 32
  | .proto => h.proto.setWidth 32
  | .csum => h.csum.setWidth 32
  | .src => h.src
  | .dst => h.dst

/-- A TCP register as read: zero-extended (R24). -/
def tcpGet (t : TcpHdr) : TcpField → Word
  | .sport => t.sport.setWidth 32
  | .dport => t.dport.setWidth 32
  | .seq => t.seq
  | .ack => t.ack
  | .doff => t.doff.setWidth 32
  | .flags => t.flags.setWidth 32
  | .win => t.win.setWidth 32
  | .csum => t.csum.setWidth 32
  | .urg => t.urg.setWidth 32

/-- An IPv4 register written: the value truncated to the register's width (R24). -/
def ipSet (h : IpHdr) (v : Word) : IpField → IpHdr
  | .ver => { h with ver := v.setWidth 4 }
  | .ihl => { h with ihl := v.setWidth 4 }
  | .tos => { h with tos := v.setWidth 8 }
  | .len => { h with len := v.setWidth 16 }
  | .id => { h with id := v.setWidth 16 }
  | .frag => { h with frag := v.setWidth 16 }
  | .ttl => { h with ttl := v.setWidth 8 }
  | .proto => { h with proto := v.setWidth 8 }
  | .csum => { h with csum := v.setWidth 16 }
  | .src => { h with src := v }
  | .dst => { h with dst := v }

/-- A TCP register written: the value truncated to the register's width (R24). -/
def tcpSet (t : TcpHdr) (v : Word) : TcpField → TcpHdr
  | .sport => { t with sport := v.setWidth 16 }
  | .dport => { t with dport := v.setWidth 16 }
  | .seq => { t with seq := v }
  | .ack => { t with ack := v }
  | .doff => { t with doff := v.setWidth 4 }
  | .flags => { t with flags := v.setWidth 8 }
  | .win => { t with win := v.setWidth 16 }
  | .csum => { t with csum := v.setWidth 16 }
  | .urg => { t with urg := v.setWidth 16 }

/-- `reg[c].NAME` as the host reads it: zero-extended to 32 bits (R6, R24). -/
def Ctx.getReg (x : Ctx) : Reg → Word
  | .ip .h f => ipGet x.hIp f
  | .ip .f f => ipGet x.fIp f
  | .tcp .h f => tcpGet x.hTcp f
  | .tcp .f f => tcpGet x.fTcp f
  | .argOff => x.argOff
  | .argLen => x.argLen
  | .phSrc => x.phSrc
  | .phDst => x.phDst
  | .phProto => x.phProto.setWidth 32
  | .phLen => x.phLen.setWidth 32
  | .fiSrc => x.fiSrc
  | .fiDst => x.fiDst
  | .fiSport => x.fiSport.setWidth 32
  | .fiDport => x.fiDport.setWidth 32
  | .txDst => x.txDst
  | .cmd => x.cmd
  | .status => x.status.setWidth 32
  | .resCsum => x.resCsum.setWidth 32
  | .resCls => x.resCls.setWidth 32
  | .pktLen => x.pktLen.setWidth 32

/-- A host write of a register: truncated to its width (R24). A read-only register is never written by the host
(`regWritable`). For `CMD` this is the storing of the word; running it is `hostWrite`'s (R17). -/
def Ctx.setReg (x : Ctx) (v : Word) : Reg → Ctx
  | .ip .h f => { x with hIp := ipSet x.hIp v f }
  | .ip .f f => { x with fIp := ipSet x.fIp v f }
  | .tcp .h f => { x with hTcp := tcpSet x.hTcp v f }
  | .tcp .f f => { x with fTcp := tcpSet x.fTcp v f }
  | .argOff => { x with argOff := v }
  | .argLen => { x with argLen := v }
  | .phSrc => { x with phSrc := v }
  | .phDst => { x with phDst := v }
  | .phProto => { x with phProto := v.setWidth 8 }
  | .phLen => { x with phLen := v.setWidth 16 }
  | .fiSrc => { x with fiSrc := v }
  | .fiDst => { x with fiDst := v }
  | .fiSport => { x with fiSport := v.setWidth 16 }
  | .fiDport => { x with fiDport := v.setWidth 16 }
  | .txDst => { x with txDst := v }
  | .cmd => { x with cmd := v }
  | .status => x
  | .resCsum => x
  | .resCls => x
  | .pktLen => x

end Sys2Proof.Machine
end

