-- ==== Sys2Proof/Machine/HostPort.lean ====
section
/-! DEFINITION. The host port of a context (spec R10 (a), R40, R41, R44 to R47): what an access reaches, the error response, and the write of
`CMD`, which runs a command (R17, R71). -/

namespace Sys2Proof.Machine

/-- What an access of the right width reaches (R41). -/
inductive Target where
  | reg (r : Reg)
  | buf (i : Nat)
  | pkt (i : Nat)
  deriving DecidableEq, Repr

/-- Where `BUF` begins (R19, R41). -/
def bufBase : Nat := 0x10000

/-- Where `PKT` begins (R20, R41). -/
def pktBase : Nat := 0x20000

/-- The address map of R41 with the widths of R44: 32 bits for a register, 8 for a byte of `BUF` or `PKT`. `none` is an access error
(R45). -/
def target (p : Params) (width addr : Nat) : Option Target :=
  if width = 32 then (regAt addr).map .reg
  else if width = 8 then
    if bufBase ≤ addr ∧ addr < bufBase + p.bufCap then some (.buf (addr - bufBase))
    else if pktBase ≤ addr ∧ addr < pktBase + Config.pktCap then some (.pkt (addr - pktBase))
    else none
  else none

/-- What a read answers (R24, R19, R20): a register or a byte, zero-extended; it changes nothing (R47). -/
def Ctx.hostRead (p : Params) (x : Ctx) (width addr : Nat) : Resp :=
  match target p width addr with
  | some (.reg r) => .value (x.getReg r)
  | some (.buf i) => .value ((x.bufByte i).setWidth 32)
  | some (.pkt i) => .value ((x.pktByte i).setWidth 32)
  | none => .error

/-- Run the command word `w` on context `s.cur` (R71): the command it names, or the completion code `ILLEGAL`. -/
def runCommand (w : Word) (s : State) : Out :=
  match decode w with
  | .ok i => exec i s
  | .error _ => onCtx s fun x => x.raise .illegal

/-- A write at the host port of context `c`, which is `x` (R17, R24, R45). A byte write stores the low 8 bits of the data, all that an
8-bit access carries (log entry 16). -/
def hostWrite (s : State) (c : Nat) (x : Ctx) (width addr : Nat) (data : Word) : Out :=
  match target s.par width addr with
  | some (.reg .cmd) => runCommand data ({ s with resp := some .done }.setCtx c (x.setReg data .cmd))
  | some (.reg r) =>
    if regWritable r then .next ({ s with resp := some .done }.setCtx c (x.setReg data r))
    else .next { s with resp := some .error }
  | some (.buf i) => .next ({ s with resp := some .done }.setCtx c (x.memWrite i [data.setWidth 8]))
  | some (.pkt _) => .next { s with resp := some .error }
  | none => .next { s with resp := some .error }

/-- One access at the host port of context `c` (R10 (a)). An engine without context `c` has no such port (log entry 12). -/
def hostAccess (c : Nat) (a : Access) (s : State) : Out :=
  match s.ctxs[c]? with
  | none => .fault .noContext
  | some x =>
    match a with
    | .read width addr => .next { s with cur := c, resp := some (x.hostRead s.par width addr) }
    | .write width addr data => hostWrite { s with cur := c } c x width addr data

end Sys2Proof.Machine
end

