-- ==== Sys2Proof/Machine/Agents.lean ====
section
/-! DEFINITION. The agents of spec R10: host ports, arbiter, reset; and the step each input stands for. -/

namespace Sys2Proof.Machine

/-- A reset in mid-run (R190 to R193): every context as after reset, so that a pending packet is dropped; `WIRE` keeps its records;
`PRIV` may change only here; every buffer byte is a new free value. -/
def State.resetAgain (s : State) (priv : Bool) : State :=
  { s with
    ctxs := resetCtxs (s.epoch + 1) 0 s.ctxs.length
    priv := priv
    cur := 0
    resp := none
    epoch := s.epoch + 1 }

/-- The step of one agent (R10). -/
def runInput (i : Input) (s : State) : Out :=
  match i with
  | .host c a => hostAccess c a s
  | .arb c => .next (s.arbiter c)
  | .reset priv => .next (s.resetAgain priv)

end Sys2Proof.Machine
end

