-- ==== Sys2Proof/Machine/Step.lean ====
section
/-! DEFINITION. One step of the engine (spec R9 to R11): the next agent's step, each one atomic. -/

namespace Sys2Proof.Machine

/-- The next input is taken and its agent steps; where none is left, only the arbiter can step (log entry 5). -/
def step (s : State) : Host.Outcome State Fault Refusal :=
  match s.inputs with
  | [] => .next s.idle
  | i :: rest => runInput i { s with inputs := rest }

/-- The state whose next step is the host's write of this command word to `CMD` of context 0 (log entry 4). -/
def State.withFetchWord (s : State) (nbits w : Nat) : State :=
  match tableWord nbits w with
  | none => s
  | some v => { s with inputs := .host 0 (.write 32 0x130 v) :: s.inputs }

end Sys2Proof.Machine
end

