-- ==== Sys2Proof/Safety.lean ====
section
/-! DEFINITION. What a good state is and what a good run is, in the terms statements use. -/

namespace Sys2Proof.Machine

/-- A packet waiting in the slot is as long as its `len` says and no shorter than two headers (R21, R68). -/
def Slot.wf (p : Slot) : Bool := decide (p.len.toNat = p.bytes.length) && decide (40 ≤ p.bytes.length)

/-- A good context under the parameters `par` and the grant `priv`: the buffers keep their canonical form; `PKT` lists the positions below `PKT_LEN`
and no others (R20, R192), and `PKT_LEN` is 0 or, once `GEN` has run, and so `FINIT` before it, at least 40 (R128, R131); `RES_CLS` is never 3 (R141); a path is open only under privilege and a
failure for want of it is recorded only without (R151); a packet waits only on an open path, and `PKT_LEN` does
not go back to 0 while it waits (R152, R17). -/
structure Ctx.Good (par : Params) (priv : Bool) (x : Ctx) : Prop where
  bufWf : Memory.wf par.bufCap x.buf = true
  pktWf : Memory.wf Config.pktCap x.pkt = true
  pktCells : ∀ i, (x.pkt.read i).isSome = true ↔ i < x.pktLen.toNat
  pktHead : x.pktLen = 0 ∨ (40 ≤ x.pktLen.toNat ∧ x.fvalid = true)
  clsLegal : x.resCls ≠ 3
  openPriv : x.txen = true → priv = true
  fatalNoPriv : x.fatal = true → priv = false
  slotOpen : ∀ p, x.slot = some p → p.wf = true ∧ x.txen = true ∧ x.pktLen ≠ 0

/-- A good record of `WIRE` in an engine of `n` contexts: sent by one of them, with destination port 0 (R69), a whole generated packet
(R68). -/
def WireRecord.wf (n : Nat) (r : WireRecord) : Bool :=
  decide (r.ctx < n) && decide (r.dport = 0) && decide (40 ≤ r.bytes.length) && decide (r.bytes.length ≤ Config.pktCap)

/-- The invariant of the engine: at least one context (R4), every one good, every record of `WIRE` good. -/
structure State.Good (s : State) : Prop where
  someCtx : 1 ≤ s.ctxs.length
  ctxGood : ∀ x ∈ s.ctxs, x.Good s.par s.priv
  wireGood : ∀ r ∈ s.wire, r.wf s.ctxs.length = true

/-- A host port has a further access to make in this run: one stands in the list before its first reset, which ends the run (R190, R210). -/
def accessLeft : List Input → Bool
  | [] => false
  | .host _ _ :: _ => true
  | .arb _ :: rest => accessLeft rest
  | .reset _ :: _ => false

/-- Quiescent (R210): no host port has a further access to make in this run and no slot is valid. Arbiter inputs and what follows a reset
do not count. -/
def State.quiescent (s : State) : Bool := !accessLeft s.inputs && s.pending.isEmpty

/-- An input the engine has an agent for: the host port or the slot it names exists (R10). -/
def Input.named (n : Nat) : Input → Bool
  | .host c _ => decide (c < n)
  | .arb c => decide (c < n)
  | .reset _ => true

/-- A safe run: every input still to come names a context the engine has, so no step can fault. -/
def State.safe (s : State) : Bool := s.inputs.all (Input.named s.ctxs.length)

end Sys2Proof.Machine
end

