-- ==== Sys2Proof/Certificates/Slice0/Obligations.lean ====
section
/-! DEFINITION. The statements for the provers, and the terms they are stated in. The layouts are written as whole numbers and the
checksum as the sum and the folds of spec R110, so that they do not repeat the model's own functions. -/

namespace Sys2Proof.Spec

open Sys2Proof.Machine

/-- The IPv4 header of R61 as one 160-bit number, byte 0 the most significant. -/
def ipBits (h : IpHdr) : Nat :=
  h.ver.toNat * 2 ^ 156 + h.ihl.toNat * 2 ^ 152 + h.tos.toNat * 2 ^ 144 + h.len.toNat * 2 ^ 128 + h.id.toNat * 2 ^ 112 +
    h.frag.toNat * 2 ^ 96 + h.ttl.toNat * 2 ^ 88 + h.proto.toNat * 2 ^ 80 + h.csum.toNat * 2 ^ 64 + h.src.toNat * 2 ^ 32 +
    h.dst.toNat

/-- The TCP header of R63 as one 160-bit number, byte 0 the most significant, the reserved nibble 0 (R64). -/
def tcpBits (t : TcpHdr) : Nat :=
  t.sport.toNat * 2 ^ 144 + t.dport.toNat * 2 ^ 128 + t.seq.toNat * 2 ^ 96 + t.ack.toNat * 2 ^ 64 + t.doff.toNat * 2 ^ 60 +
    t.flags.toNat * 2 ^ 48 + t.win.toNat * 2 ^ 32 + t.csum.toNat * 2 ^ 16 + t.urg.toNat

/-- The pseudo-header of R66 as one 96-bit number, byte 0 the most significant, byte 8 zero. -/
def pseudoBits (src dst : Word) (proto : Byte) (len : Half) : Nat :=
  src.toNat * 2 ^ 64 + dst.toNat * 2 ^ 32 + proto.toNat * 2 ^ 16 + len.toNat

/-- Byte `k`, counted from the first transmitted one, of a number of `n` bytes. -/
def byteOf (n v k : Nat) : Byte := BitVec.ofNat 8 (v / 2 ^ (8 * (n - 1 - k)))

/-- The sum of the 16-bit big-endian words of the `n` bytes `b 0`, `b 1`, …, a last odd byte padded with a zero byte (R110
steps 1 and 2). -/
def wordSum (b : Nat → Byte) (n : Nat) : Nat :=
  ∑ k ∈ Finset.range ((n + 1) / 2), (256 * (b (2 * k)).toNat + if 2 * k + 1 < n then (b (2 * k + 1)).toNat else 0)

/-- One fold of R110 step 3. -/
def fold (sum : Nat) : Nat := sum % 2 ^ 16 + sum / 2 ^ 16

/-- `c` is the checksum of the `n` bytes `b`, by the letter of R110: fold while the sum exceeds 0xFFFF, then complement. -/
def IsChecksum (b : Nat → Byte) (n : Nat) (c : Half) : Prop :=
  ∃ k, (∀ j, j < k → 0xFFFF < fold^[j] (wordSum b n)) ∧ fold^[k] (wordSum b n) ≤ 0xFFFF ∧
    c.toNat = 0xFFFF - fold^[k] (wordSum b n)

/-- What `GEN` sums (R128 steps 2 to 4): pseudo-header, TCP header with a zero checksum, payload of `n` bytes. -/
def genInput (par : Params) (x : Ctx) (n i : Nat) : Byte :=
  if i < 12 then byteOf 12 (pseudoBits x.fIp.src x.fIp.dst par.protoTcp (BitVec.ofNat 16 (20 + n))) i
  else if i < 32 then byteOf 20 (tcpBits { x.fTcp with csum := 0 }) (i - 12)
  else x.bufByte (x.argOff.toNat + (i - 32))

/-- The packet `GEN` makes with the checksum `k` (R128 steps 5 to 8). -/
def genOutput (x : Ctx) (k : Half) (i : Nat) : Byte :=
  if i < 20 then byteOf 20 (ipBits x.fIp) i
  else if i < 40 then byteOf 20 (tcpBits { x.fTcp with csum := k }) (i - 20)
  else x.bufByte (x.argOff.toNat + (i - 40))

/-- The state with the context in use replaced and nothing else changed. -/
def withCur (s : State) (y : Ctx) : State := { s with ctxs := s.ctxs.set s.cur y }

/-- The state in which a command word written to `CMD` of context `c`, which is `x`, runs: the access is taken, answered, and the word
stored (R17). -/
def afterCmdWrite (s : State) (c : Nat) (x : Ctx) (w : Word) (rest : List Input) : State :=
  { s with inputs := rest, cur := c, resp := some .done, ctxs := s.ctxs.set c { x with cmd := w } }

/-- The offsets at which a register stands (R14 to R17, R41). -/
def IsRegOffset (a : Nat) : Prop :=
  a % 4 = 0 ∧ (a ≤ 0x28 ∨ (0x30 ≤ a ∧ a ≤ 0x50) ∨ (0x80 ≤ a ∧ a ≤ 0xA8) ∨ (0xB0 ≤ a ∧ a ≤ 0xD0) ∨
    (0x100 ≤ a ∧ a ≤ 0x128) ∨ (0x130 ≤ a ∧ a ≤ 0x140))

/-- The accesses that are not refused by an engine of `BUF_CAP` = `cap` (R41, R44, R45). -/
def Allowed (cap : Nat) : Access → Prop
  | .read width a =>
    (width = 32 ∧ IsRegOffset a) ∨ (width = 8 ∧ 0x10000 ≤ a ∧ a < 0x10000 + cap) ∨ (width = 8 ∧ 0x20000 ≤ a ∧ a ≤ 0x2FFFE)
  | .write width a _ => (width = 32 ∧ IsRegOffset a ∧ a ≤ 0x130) ∨ (width = 8 ∧ 0x10000 ≤ a ∧ a < 0x10000 + cap)

/-- How many bytes of `BUF` a command moves from `ARG_OFF` on; `none` for a command without a buffer (R46). -/
def bufferLength (x : Ctx) : Instr → Option Nat
  | .encIp | .encTcp => some 20
  | .psh => some 12
  | .decIp | .decTcp | .csum | .gen | .icls => some x.argLen.toNat
  | .nop | .finit | .txopen | .tx => none

/-- The checks of R172 for a legal command, in their order: the first that fires gives the code. -/
def codeOf (par : Params) (priv : Bool) (x : Ctx) (i : Instr) : Completion :=
  if i = .gen ∧ x.fvalid = false then .notInit
  else if (i = .txopen ∨ i = .tx) ∧ priv = false then .noPriv
  else if i = .tx ∧ x.txen = false then .txNotOpen
  else if i = .tx ∧ x.pktLen.toNat = 0 then .noPkt
  else if i = .tx ∧ x.slot ≠ none then .txBusy
  else if ∃ n, bufferLength x i = some n ∧ par.bufCap < x.argOff.toNat + n then .range
  else if i = .gen ∧ 65495 < x.argLen.toNat then .range
  else if (i = .decIp ∨ i = .decTcp ∨ i = .icls) ∧ x.argLen.toNat < 20 then .malformed
  else if i = .icls ∧ x.bufByte (x.argOff.toNat + 9) = par.protoIcmp ∧ x.argLen.toNat < 22 then .malformed
  else .ok

/-- The numbers of the completion codes (R170). -/
def codeNumber : Completion → Nat
  | .ok => 0
  | .malformed => 1
  | .illegal => 2
  | .range => 3
  | .noPriv => 4
  | .txNotOpen => 5
  | .txBusy => 6
  | .notInit => 7
  | .noPkt => 8

/-- Bank `H` as R14 writes it out: offset, width, the value stored. -/
def hRows (x : Ctx) : List (Nat × Nat × Nat) :=
  [(0x000, 4, x.hIp.ver.toNat), (0x004, 4, x.hIp.ihl.toNat), (0x008, 8, x.hIp.tos.toNat), (0x00C, 16, x.hIp.len.toNat),
   (0x010, 16, x.hIp.id.toNat), (0x014, 16, x.hIp.frag.toNat), (0x018, 8, x.hIp.ttl.toNat), (0x01C, 8, x.hIp.proto.toNat),
   (0x020, 16, x.hIp.csum.toNat), (0x024, 32, x.hIp.src.toNat), (0x028, 32, x.hIp.dst.toNat),
   (0x030, 16, x.hTcp.sport.toNat), (0x034, 16, x.hTcp.dport.toNat), (0x038, 32, x.hTcp.seq.toNat),
   (0x03C, 32, x.hTcp.ack.toNat), (0x040, 4, x.hTcp.doff.toNat), (0x044, 8, x.hTcp.flags.toNat),
   (0x048, 16, x.hTcp.win.toNat), (0x04C, 16, x.hTcp.csum.toNat), (0x050, 16, x.hTcp.urg.toNat)]

/-- Bank `F`, each register 0x080 above its `H` twin (R15): offset, width, the value stored. -/
def fRows (x : Ctx) : List (Nat × Nat × Nat) :=
  [(0x080, 4, x.fIp.ver.toNat), (0x084, 4, x.fIp.ihl.toNat), (0x088, 8, x.fIp.tos.toNat), (0x08C, 16, x.fIp.len.toNat),
   (0x090, 16, x.fIp.id.toNat), (0x094, 16, x.fIp.frag.toNat), (0x098, 8, x.fIp.ttl.toNat), (0x09C, 8, x.fIp.proto.toNat),
   (0x0A0, 16, x.fIp.csum.toNat), (0x0A4, 32, x.fIp.src.toNat), (0x0A8, 32, x.fIp.dst.toNat),
   (0x0B0, 16, x.fTcp.sport.toNat), (0x0B4, 16, x.fTcp.dport.toNat), (0x0B8, 32, x.fTcp.seq.toNat),
   (0x0BC, 32, x.fTcp.ack.toNat), (0x0C0, 4, x.fTcp.doff.toNat), (0x0C4, 8, x.fTcp.flags.toNat),
   (0x0C8, 16, x.fTcp.win.toNat), (0x0CC, 16, x.fTcp.csum.toNat), (0x0D0, 16, x.fTcp.urg.toNat)]

/-- The operand registers of R16: offset, width, the value stored. -/
def operandRows (x : Ctx) : List (Nat × Nat × Nat) :=
  [(0x100, 32, x.argOff.toNat), (0x104, 32, x.argLen.toNat), (0x108, 32, x.phSrc.toNat), (0x10C, 32, x.phDst.toNat),
   (0x110, 8, x.phProto.toNat), (0x114, 16, x.phLen.toNat), (0x118, 32, x.fiSrc.toNat), (0x11C, 32, x.fiDst.toNat),
   (0x120, 16, x.fiSport.toNat), (0x124, 16, x.fiDport.toNat), (0x128, 32, x.txDst.toNat)]

/-- `STATUS` as a number: `CC` in bits 3:0, `FVALID` in bit 4, `TXEN` in 5, `TXPEND` in 6, `FATAL` in 7 (R18, R21). -/
def statusNumber (x : Ctx) : Nat :=
  codeNumber x.cc + 16 * x.fvalid.toNat + 32 * x.txen.toNat + 64 * x.slot.isSome.toNat + 128 * x.fatal.toNat

/-- The control and result registers of R17: offset, width, the value stored. -/
def controlRows (x : Ctx) : List (Nat × Nat × Nat) :=
  [(0x130, 32, x.cmd.toNat), (0x134, 8, statusNumber x), (0x138, 16, x.resCsum.toNat), (0x13C, 2, x.resCls.toNat),
   (0x140, 16, x.pktLen.toNat)]

/-- The register map of a context, in the order of the tables of R14 to R17. The first 51 rows are the registers a host writes, `CMD` apart;
row 51 is `CMD`, the last four are read only. -/
def registerFile (x : Ctx) : List (Nat × Nat × Nat) := hRows x ++ fRows x ++ operandRows x ++ controlRows x

/-- What context `c` has handed over for sending, in order: its records in `WIRE`, then the packet in its slot. -/
def sent (s : State) (c : Nat) : List (Word × List Byte) :=
  (s.wire.filter fun r => r.ctx == c).map (fun r => (r.dst, r.bytes)) ++
    (match s.ctxs[c]? with
    | some x => x.slot.toList.map fun p => (p.dst, p.bytes)
    | none => [])

/-- The records the arbiter owes: one for each context, from index `c` on, whose slot is valid. -/
def owed (c : Nat) : List Ctx → List WireRecord
  | [] => []
  | x :: xs => (x.slot.toList.map fun p => { ctx := c, dst := p.dst, dport := 0, bytes := p.bytes }) ++ owed (c + 1) xs

end Sys2Proof.Spec

open Sys2Proof Sys2Proof.Machine Sys2Proof.Spec

/-! ### Encoding -/

/-- Decode and encode agree, and the legal words are exactly 0 to 11 (R70, R71, R74). -/
def Obligations.DecodeAndEncodeAgree : Prop :=
  (∀ i, i.wellFormed = true → decode (encode i) = .ok i) ∧
  (∀ w i, decode w = .ok i → encode i = w) ∧
  (∀ w, (∃ i, decode w = .ok i) ↔ w.toNat ≤ 11)

/-- R73: which word names which command, the whole word compared. -/
def Obligations.EachMnemonicHasOneWord : Prop :=
  ∀ w : Word,
    (decode w = .ok .nop ↔ w = 0x00000000#32) ∧ (decode w = .ok .encIp ↔ w = 0x00000001#32) ∧
    (decode w = .ok .decIp ↔ w = 0x00000002#32) ∧ (decode w = .ok .encTcp ↔ w = 0x00000003#32) ∧
    (decode w = .ok .decTcp ↔ w = 0x00000004#32) ∧ (decode w = .ok .csum ↔ w = 0x00000005#32) ∧
    (decode w = .ok .psh ↔ w = 0x00000006#32) ∧ (decode w = .ok .finit ↔ w = 0x00000007#32) ∧
    (decode w = .ok .gen ↔ w = 0x00000008#32) ∧ (decode w = .ok .icls ↔ w = 0x00000009#32) ∧
    (decode w = .ok .txopen ↔ w = 0x0000000A#32) ∧ (decode w = .ok .tx ↔ w = 0x0000000B#32)

/-- A few words, written out from R70 and R73. -/
def Obligations.SomeWordsDecode : Prop :=
  decode 0b00000000000000000000000000000000#32 = .ok .nop ∧ decode 0b00000000000000000000000000000100#32 = .ok .decTcp ∧
  decode 0b00000000000000000000000000001000#32 = .ok .gen ∧ decode 0b00000000000000000000000000001011#32 = .ok .tx ∧
  decode 0b00000000000000000000000000001100#32 = .error .reservedOpcode ∧
  decode 0b00000000000000000000000100000101#32 = .error .upperBitsSet

/-- R71 at the machine's step: the write of a word to `CMD` runs the command it names, and a word that names none completes with
`ILLEGAL` and changes nothing else; `CMD` holds the word. -/
def Obligations.StepRunsTheWordWrittenToCmd : Prop :=
  ∀ (s : State) (c : Nat) (w : Word) (rest : List Input) (x : Ctx),
    s.inputs = .host c (.write 32 0x130 w) :: rest → s.ctxs[c]? = some x →
    (∀ i, decode w = .ok i → opcode i = w.extractLsb' 0 8 ∧ step s = exec i (afterCmdWrite s c x w rest)) ∧
    ((w.extractLsb' 8 24 ≠ 0 ∨ 12 ≤ (w.extractLsb' 0 8).toNat) ↔ ∀ i, decode w ≠ .ok i) ∧
    ((∀ i, decode w ≠ .ok i) →
      step s = .next { afterCmdWrite s c x w rest with ctxs := s.ctxs.set c { x with cmd := w, cc := .illegal } })

/-! ### The twelve commands, each with every way it completes and all that it leaves alone -/

/-- R150. -/
def Obligations.NopOnlyClearsTheCode : Prop :=
  decode 0x00000000#32 = .ok .nop ∧
  ∀ (s : State) (x : Ctx), s.ctxs[s.cur]? = some x → exec .nop s = .next (withCur s { x with cc := .ok })

/-- R94. -/
def Obligations.EncIpWritesTheHeader : Prop :=
  decode 0x00000001#32 = .ok .encIp ∧
  ∀ (s : State) (x : Ctx), s.ctxs[s.cur]? = some x →
    (x.argOff.toNat + 20 ≤ s.par.bufCap → ∃ m,
      exec .encIp s = .next (withCur s { x with buf := m, cc := .ok }) ∧
      (∀ k, k < 20 → { x with buf := m }.bufByte (x.argOff.toNat + k) = byteOf 20 (ipBits x.hIp) k) ∧
      ∀ a, a < x.argOff.toNat ∨ x.argOff.toNat + 20 ≤ a → { x with buf := m }.bufByte a = x.bufByte a) ∧
    (s.par.bufCap < x.argOff.toNat + 20 → exec .encIp s = .next (withCur s { x with cc := .range }))

/-- R95. -/
def Obligations.DecIpLoadsTheHeader : Prop :=
  decode 0x00000002#32 = .ok .decIp ∧
  ∀ (s : State) (x : Ctx), s.ctxs[s.cur]? = some x →
    (x.argOff.toNat + x.argLen.toNat ≤ s.par.bufCap → 20 ≤ x.argLen.toNat → ∃ h,
      exec .decIp s = .next (withCur s { x with hIp := h, cc := .ok }) ∧
      ∀ k, k < 20 → x.bufByte (x.argOff.toNat + k) = byteOf 20 (ipBits h) k) ∧
    (s.par.bufCap < x.argOff.toNat + x.argLen.toNat → exec .decIp s = .next (withCur s { x with cc := .range })) ∧
    (x.argOff.toNat + x.argLen.toNat ≤ s.par.bufCap → x.argLen.toNat < 20 →
      exec .decIp s = .next (withCur s { x with cc := .malformed }))

/-- R96. -/
def Obligations.EncTcpWritesTheHeader : Prop :=
  decode 0x00000003#32 = .ok .encTcp ∧
  ∀ (s : State) (x : Ctx), s.ctxs[s.cur]? = some x →
    (x.argOff.toNat + 20 ≤ s.par.bufCap → ∃ m,
      exec .encTcp s = .next (withCur s { x with buf := m, cc := .ok }) ∧
      (∀ k, k < 20 → { x with buf := m }.bufByte (x.argOff.toNat + k) = byteOf 20 (tcpBits x.hTcp) k) ∧
      ∀ a, a < x.argOff.toNat ∨ x.argOff.toNat + 20 ≤ a → { x with buf := m }.bufByte a = x.bufByte a) ∧
    (s.par.bufCap < x.argOff.toNat + 20 → exec .encTcp s = .next (withCur s { x with cc := .range }))

/-- R97: the reserved nibble, bits 3:0 of byte 12, is dropped. -/
def Obligations.DecTcpLoadsTheHeader : Prop :=
  decode 0x00000004#32 = .ok .decTcp ∧
  ∀ (s : State) (x : Ctx), s.ctxs[s.cur]? = some x →
    (x.argOff.toNat + x.argLen.toNat ≤ s.par.bufCap → 20 ≤ x.argLen.toNat → ∃ t,
      exec .decTcp s = .next (withCur s { x with hTcp := t, cc := .ok }) ∧
      (∀ k, k < 20 → k ≠ 12 → x.bufByte (x.argOff.toNat + k) = byteOf 20 (tcpBits t) k) ∧
      x.bufByte (x.argOff.toNat + 12) &&& 0xF0#8 = byteOf 20 (tcpBits t) 12) ∧
    (s.par.bufCap < x.argOff.toNat + x.argLen.toNat → exec .decTcp s = .next (withCur s { x with cc := .range })) ∧
    (x.argOff.toNat + x.argLen.toNat ≤ s.par.bufCap → x.argLen.toNat < 20 →
      exec .decTcp s = .next (withCur s { x with cc := .malformed }))

/-- R113. -/
def Obligations.CsumSumsTheBuffer : Prop :=
  decode 0x00000005#32 = .ok .csum ∧
  ∀ (s : State) (x : Ctx), s.ctxs[s.cur]? = some x →
    (x.argOff.toNat + x.argLen.toNat ≤ s.par.bufCap → ∃ r,
      exec .csum s = .next (withCur s { x with resCsum := r, cc := .ok }) ∧
      IsChecksum (fun k => x.bufByte (x.argOff.toNat + k)) x.argLen.toNat r) ∧
    (s.par.bufCap < x.argOff.toNat + x.argLen.toNat → exec .csum s = .next (withCur s { x with cc := .range }))

/-- R115. -/
def Obligations.PshWritesThePseudoHeader : Prop :=
  decode 0x00000006#32 = .ok .psh ∧
  ∀ (s : State) (x : Ctx), s.ctxs[s.cur]? = some x →
    (x.argOff.toNat + 12 ≤ s.par.bufCap → ∃ m,
      exec .psh s = .next (withCur s { x with buf := m, cc := .ok }) ∧
      (∀ k, k < 12 → { x with buf := m }.bufByte (x.argOff.toNat + k) =
        byteOf 12 (pseudoBits x.phSrc x.phDst x.phProto x.phLen) k) ∧
      ∀ a, a < x.argOff.toNat ∨ x.argOff.toNat + 12 ≤ a → { x with buf := m }.bufByte a = x.bufByte a) ∧
    (s.par.bufCap < x.argOff.toNat + 12 → exec .psh s = .next (withCur s { x with cc := .range }))

/-- R126. The values of the parameters at reset stand in `ParametersStayFixed`. -/
def Obligations.FinitLoadsTheFactory : Prop :=
  decode 0x00000007#32 = .ok .finit ∧
  ∀ (s : State) (x : Ctx), s.ctxs[s.cur]? = some x →
    exec .finit s = .next (withCur s { x with
      fIp := { ver := s.par.ipVersion, ihl := 5, tos := s.par.defTos, len := 0, id := s.par.defId, frag := s.par.defFrag,
               ttl := s.par.defTtl, proto := s.par.protoTcp, csum := 0, src := x.fiSrc, dst := x.fiDst }
      fTcp := { sport := x.fiSport, dport := x.fiDport, seq := 0, ack := 0, doff := 5, flags := 0,
                win := s.par.defWindow, csum := 0, urg := 0 }
      fvalid := true
      cc := .ok })

/-- R128. The counter `fill.gens` is the model's own (log entry 2): it tells the unspecified bytes of `PKT` after this `GEN` from
earlier ones. -/
def Obligations.GenBuildsThePacket : Prop :=
  decode 0x00000008#32 = .ok .gen ∧
  ∀ (s : State) (x : Ctx), s.ctxs[s.cur]? = some x →
    (x.fvalid = true → x.argOff.toNat + x.argLen.toNat ≤ s.par.bufCap → x.argLen.toNat ≤ 65495 → ∃ k m,
      IsChecksum (genInput s.par x x.argLen.toNat) (32 + x.argLen.toNat) k ∧
      exec .gen s = .next (withCur s { x with
        fTcp := { x.fTcp with csum := k }
        pkt := m
        pktLen := BitVec.ofNat 16 (40 + x.argLen.toNat)
        fill := { x.fill with gens := x.fill.gens + 1 }
        cc := .ok }) ∧
      ∀ i, i < 40 + x.argLen.toNat →
        { x with pkt := m, pktLen := BitVec.ofNat 16 (40 + x.argLen.toNat) }.pktByte i = genOutput x k i) ∧
    (x.fvalid = false → exec .gen s = .next (withCur s { x with cc := .notInit })) ∧
    (x.fvalid = true → s.par.bufCap < x.argOff.toNat + x.argLen.toNat ∨ 65495 < x.argLen.toNat →
      exec .gen s = .next (withCur s { x with cc := .range }))

/-- R142, with the table of R140, R141 and R143. -/
def Obligations.IclsClassifiesTheDatagram : Prop :=
  decode 0x00000009#32 = .ok .icls ∧
  ∀ (s : State) (x : Ctx), s.ctxs[s.cur]? = some x →
    let d := fun i => (x.bufByte (x.argOff.toNat + i)).toNat
    (s.par.bufCap < x.argOff.toNat + x.argLen.toNat → exec .icls s = .next (withCur s { x with cc := .range })) ∧
    (x.argOff.toNat + x.argLen.toNat ≤ s.par.bufCap → x.argLen.toNat < 20 ∨ (d 9 = s.par.protoIcmp.toNat ∧ x.argLen.toNat < 22) →
      exec .icls s = .next (withCur s { x with cc := .malformed })) ∧
    (x.argOff.toNat + x.argLen.toNat ≤ s.par.bufCap → 20 ≤ x.argLen.toNat → d 9 ≠ s.par.protoIcmp.toNat →
      exec .icls s = .next (withCur s { x with resCls := 0, cc := .ok })) ∧
    (x.argOff.toNat + x.argLen.toNat ≤ s.par.bufCap → 22 ≤ x.argLen.toNat → d 9 = s.par.protoIcmp.toNat →
      d 20 ≠ 3 ∨ d 21 ∉ [1, 2, 3, 9, 10, 13] →
      exec .icls s = .next (withCur s { x with resCls := 1, cc := .ok })) ∧
    (x.argOff.toNat + x.argLen.toNat ≤ s.par.bufCap → 22 ≤ x.argLen.toNat → d 9 = s.par.protoIcmp.toNat →
      d 20 = 3 → d 21 ∈ [1, 2, 3, 9, 10, 13] →
      exec .icls s = .next (withCur s { x with resCls := 2, cc := .ok }))

/-- R151. -/
def Obligations.TxopenNeedsThePrivilege : Prop :=
  decode 0x0000000A#32 = .ok .txopen ∧
  ∀ (s : State) (x : Ctx), s.ctxs[s.cur]? = some x →
    (s.priv = true → exec .txopen s = .next (withCur s { x with txen := true, cc := .ok })) ∧
    (s.priv = false → exec .txopen s = .next (withCur s { x with fatal := true, cc := .noPriv }))

/-- R152. -/
def Obligations.TxCopiesThePacketIntoTheSlot : Prop :=
  decode 0x0000000B#32 = .ok .tx ∧
  ∀ (s : State) (x : Ctx), s.ctxs[s.cur]? = some x →
    (s.priv = true → x.txen = true → x.pktLen.toNat ≠ 0 → x.slot = none → ∃ bytes,
      exec .tx s = .next (withCur s { x with slot := some { dst := x.txDst, len := x.pktLen, bytes := bytes }, cc := .ok }) ∧
      bytes.length = x.pktLen.toNat ∧ ∀ i, i < x.pktLen.toNat → bytes[i]? = some (x.pktByte i)) ∧
    (s.priv = false → exec .tx s = .next (withCur s { x with fatal := true, cc := .noPriv })) ∧
    (s.priv = true → x.txen = false → exec .tx s = .next (withCur s { x with cc := .txNotOpen })) ∧
    (s.priv = true → x.txen = true → x.pktLen.toNat = 0 → exec .tx s = .next (withCur s { x with cc := .noPkt })) ∧
    (s.priv = true → x.txen = true → x.pktLen.toNat ≠ 0 → x.slot ≠ none →
      exec .tx s = .next (withCur s { x with cc := .txBusy }))

/-! ### Completion codes -/

/-- R171. -/
def Obligations.FailedCommandChangesNothingElse : Prop :=
  ∀ (s t : State) (c : Nat) (w : Word) (rest : List Input) (x y : Ctx),
    s.inputs = .host c (.write 32 0x130 w) :: rest → s.ctxs[c]? = some x →
    step s = .next t → t.ctxs[c]? = some y → y.cc ≠ .ok →
    y = { x with cmd := w, cc := y.cc, fatal := y.fatal } ∧
    (y.cc ≠ .noPriv → y.fatal = x.fatal) ∧ (y.cc = .noPriv → y.fatal = true) ∧
    t = { s with inputs := rest, cur := c, resp := some .done, ctxs := s.ctxs.set c y }

/-- R172: the first check that fires gives the code, `ILLEGAL` before anything else. -/
def Obligations.TheFirstCheckGivesTheCode : Prop :=
  ∀ (s : State) (c : Nat) (w : Word) (rest : List Input) (x : Ctx),
    s.inputs = .host c (.write 32 0x130 w) :: rest → s.ctxs[c]? = some x →
    ∃ t y, step s = .next t ∧ t.ctxs[c]? = some y ∧
      (∀ i, decode w = .ok i → y.cc = codeOf s.par s.priv x i) ∧
      (12 ≤ w.toNat → y.cc = .illegal)

/-- R46 with the payload limit of R128. `RANGE`, and nothing else changed, where the bytes do not lie inside `BUF`, and for a `GEN` of more than 65495
bytes that do; not elsewhere. `GEN` is meant with `FVALID` set, since it checks that first (R172); `GenBuildsThePacket` has the other case. -/
def Obligations.RangeOutsideTheBuffer : Prop :=
  ∀ (s : State) (x : Ctx) (i : Instr) (n : Nat), s.ctxs[s.cur]? = some x → bufferLength x i = some n →
    (i = .gen → x.fvalid = true) →
    (s.par.bufCap < x.argOff.toNat + n → exec i s = .next (withCur s { x with cc := .range })) ∧
    (x.argOff.toNat + n ≤ s.par.bufCap → ∃ y, exec i s = .next (withCur s y) ∧
      (y.cc = .range ↔ i = .gen ∧ 65495 < x.argLen.toNat))

/-! ### The host port -/

/-- R14 to R16, R24 for the writable registers, at the offsets of the tables: the value is stored truncated to the width in the register of that
offset; every other register, the buffers and the slot keep their value. -/
def Obligations.RegisterWriteIsTruncated : Prop :=
  ∀ (s : State) (c k o w old : Nat) (v : Word) (rest : List Input) (x : Ctx),
    (registerFile x)[k]? = some (o, w, old) → k < 51 →
    s.inputs = .host c (.write 32 o v) :: rest → s.ctxs[c]? = some x →
    ∃ y, step s = .next { s with inputs := rest, cur := c, resp := some .done, ctxs := s.ctxs.set c y } ∧
      registerFile y = (registerFile x).set k (o, w, v.toNat % 2 ^ w) ∧
      y.buf = x.buf ∧ y.pkt = x.pkt ∧ y.slot = x.slot ∧ y.fill = x.fill

/-- R14 to R18, R24: a 32-bit read at a register's offset answers the value the register stores, zero-extended, and changes nothing else. -/
def Obligations.RegisterReadsAnswerTheStoredValue : Prop :=
  ∀ (s : State) (c o w n : Nat) (rest : List Input) (x : Ctx),
    (o, w, n) ∈ registerFile x → s.inputs = .host c (.read 32 o) :: rest → s.ctxs[c]? = some x →
    ∃ v : Word, step s = .next { s with inputs := rest, cur := c, resp := some (.value v) } ∧ v.toNat = n ∧ n < 2 ^ w

/-- R45: exactly the accesses outside the map are refused, with an error response and no state change. -/
def Obligations.RefusedAccessChangesNothing : Prop :=
  ∀ (s : State) (c : Nat) (a : Access) (rest : List Input) (x : Ctx),
    s.inputs = .host c a :: rest → s.ctxs[c]? = some x →
    (¬ Allowed s.par.bufCap a → step s = .next { s with inputs := rest, cur := c, resp := some .error }) ∧
    (Allowed s.par.bufCap a → ∃ t r, step s = .next t ∧ t.resp = some r ∧ r ≠ .error)

/-- R47 for reads: a read changes nothing but the response, and read again gives the same. -/
def Obligations.ReadsHaveNoEffect : Prop :=
  ∀ (s : State) (c width a : Nat) (rest : List Input) (x : Ctx),
    s.inputs = .host c (.read width a) :: .host c (.read width a) :: rest → s.ctxs[c]? = some x →
    ∃ r, step s = .next { s with inputs := .host c (.read width a) :: rest, cur := c, resp := some r } ∧
      core.run 2 s = .next { s with inputs := rest, cur := c, resp := some r }

/-- R19 and R44: `BUF` is a byte memory at offsets from 0x10000 on. That a byte write stores the low 8 bits of the access's data is the
model's reading of an 8-bit access (log entry 16). -/
def Obligations.BufWindowIsByteMemory : Prop :=
  ∀ (s : State) (c i : Nat) (v : Word) (rest : List Input) (x : Ctx), s.ctxs[c]? = some x → i < s.par.bufCap →
    (s.inputs = .host c (.write 8 (0x10000 + i) v) :: rest → ∃ m,
      step s = .next { s with inputs := rest, cur := c, resp := some .done, ctxs := s.ctxs.set c { x with buf := m } } ∧
      ({ x with buf := m }.bufByte i).toNat = v.toNat % 256 ∧
      ∀ j, j ≠ i → { x with buf := m }.bufByte j = x.bufByte j) ∧
    (s.inputs = .host c (.read 8 (0x10000 + i)) :: rest →
      step s = .next { s with inputs := rest, cur := c, resp := some (.value ((x.bufByte i).setWidth 32)) })

/-- R20: `PKT` is read at offsets from 0x20000 on. Bytes at and beyond `PKT_LEN` are the model's free value (log entry 2). -/
def Obligations.PktWindowReadsThePacket : Prop :=
  ∀ (s : State) (c i : Nat) (rest : List Input) (x : Ctx), s.ctxs[c]? = some x → i < 65535 →
    s.inputs = .host c (.read 8 (0x20000 + i)) :: rest →
    step s = .next { s with inputs := rest, cur := c, resp := some (.value ((x.pktByte i).setWidth 32)) } ∧
    (x.pktLen.toNat ≤ i → x.pktByte i = Config.pktByte x.fill.epoch x.fill.ctx x.fill.gens i)

/-- R18, R21 and the numbers of R170: `STATUS` as the host reads it. -/
def Obligations.StatusReadsItsFields : Prop :=
  ∀ (s : State) (c : Nat) (rest : List Input) (x : Ctx), s.ctxs[c]? = some x →
    s.inputs = .host c (.read 32 0x134) :: rest → ∃ v : Word,
    step s = .next { s with inputs := rest, cur := c, resp := some (.value v) } ∧
    v.toNat = statusNumber x

/-- R17: `CMD` holds the last word written, whatever became of it, and reads as that word. -/
def Obligations.CmdHoldsTheLastWord : Prop :=
  ∀ (s : State) (c : Nat) (w : Word) (rest : List Input) (x : Ctx),
    s.inputs = .host c (.write 32 0x130 w) :: .host c (.read 32 0x130) :: rest → s.ctxs[c]? = some x →
    ∃ t y, core.run 2 s = .next t ∧ t.resp = some (.value w) ∧ t.ctxs[c]? = some y ∧ y.cmd = w

/-! ### Reset -/

/-- R191, for the first reset, whatever the parameters, and for a later one. -/
def Obligations.ResetClearsEveryRegister : Prop :=
  (∀ par priv n, ∀ x ∈ (State.resetWith par priv n).ctxs, (∀ row ∈ registerFile x, row.2.2 = 0) ∧ x.slot = none) ∧
  (∀ x ∈ State.reset.ctxs, (∀ row ∈ registerFile x, row.2.2 = 0) ∧ x.slot = none) ∧
  ∀ (s : State) (p : Bool) (rest : List Input), s.inputs = .reset p :: rest →
    ∃ t, step s = .next t ∧ t.ctxs.length = s.ctxs.length ∧
      ∀ x ∈ t.ctxs, (∀ row ∈ registerFile x, row.2.2 = 0) ∧ x.slot = none

/-- R193. That a reset leaves the inputs behind it standing (`t.inputs = rest`) is the model's choice (log entry 19). -/
def Obligations.WireSurvivesReset : Prop :=
  State.reset.wire = [] ∧
  ∀ (s : State) (p : Bool) (rest : List Input), s.inputs = .reset p :: rest →
    ∃ t, step s = .next t ∧ t.wire = s.wire ∧ t.pending = [] ∧ t.inputs = rest

/-- R192: after a reset no buffer byte has a specified value; what it reads as is the model's free value (log entries 1 and 2). -/
def Obligations.BuffersAreUnspecifiedAfterReset : Prop :=
  ∀ (s : State) (p : Bool) (rest : List Input), s.inputs = .reset p :: rest →
    ∃ t, step s = .next t ∧ ∀ c x, t.ctxs[c]? = some x →
      ∀ i, x.bufByte i = Config.bufByte (s.epoch + 1) c i ∧ x.pktByte i = Config.pktByte (s.epoch + 1) c 0 i

/-- R190 and R23: `FVALID`, `TXEN` and `FATAL` are cleared by a reset only, and `PRIV` changes at a reset only. -/
def Obligations.OnlyResetClearsTheStickyFlags : Prop :=
  ∀ (s t : State), step s = .next t → (∀ p rest, s.inputs ≠ .reset p :: rest) →
    t.priv = s.priv ∧ t.ctxs.length = s.ctxs.length ∧
    ∀ (c : Nat) (x : Ctx), s.ctxs[c]? = some x → ∃ y : Ctx, t.ctxs[c]? = some y ∧
      (x.fvalid = true → y.fvalid = true) ∧ (x.txen = true → y.txen = true) ∧ (x.fatal = true → y.fatal = true)

/-- R4, R25: the parameters are no state: no step, a reset among them, changes them or the number of contexts; `BUF_CAP` is 44 to 65536; at
`State.reset` the parameters that R4 gives a value have that value. That they stand in State is the model's form (log entry 9). -/
def Obligations.ParametersStayFixed : Prop :=
  (∀ s t : State, step s = .next t → t.par = s.par ∧ t.ctxs.length = s.ctxs.length) ∧
  (∀ s : State, 44 ≤ s.par.bufCap ∧ s.par.bufCap ≤ 65536) ∧ 1 ≤ State.reset.ctxs.length ∧
  State.reset.par.bufCap = 65536 ∧ State.reset.par.protoIcmp = 1 ∧ State.reset.par.protoTcp = 6 ∧
  State.reset.par.ipVersion = 4 ∧ State.reset.par.defTtl = 255

/-! ### Contexts -/

/-- R12: an access, a command among them, on context `c` writes state of context `c` only, and what it does there and answers depends
on that context, `PRIV` and the parameters only. -/
def Obligations.ContextsShareNothing : Prop :=
  (∀ (s t : State) (c : Nat) (a : Access) (rest : List Input),
    s.inputs = .host c a :: rest → step s = .next t →
    t.wire = s.wire ∧ t.priv = s.priv ∧ ∀ d, d ≠ c → t.ctxs[d]? = s.ctxs[d]?) ∧
  (∀ (s s' : State) (c : Nat) (a : Access) (rest rest' : List Input) (x : Ctx),
    s.inputs = .host c a :: rest → s'.inputs = .host c a :: rest' →
    s.ctxs[c]? = some x → s'.ctxs[c]? = some x → s.priv = s'.priv → s.par = s'.par →
    ∃ t t' y, step s = .next t ∧ step s' = .next t' ∧
      t.ctxs[c]? = some y ∧ t'.ctxs[c]? = some y ∧ t.resp = t'.resp)

/-- R50: accesses of two contexts, taken in either order, give the same contexts and the same `WIRE`, and each is answered the same. -/
def Obligations.ContextsInterleaveFreely : Prop :=
  ∀ (s : State) (c d : Nat) (a b : Access) (rest : List Input) (x y : Ctx),
    c ≠ d → s.ctxs[c]? = some x → s.ctxs[d]? = some y →
    ∃ t₁ t₂ u₁ u₂ : State,
      step { s with inputs := .host c a :: .host d b :: rest } = .next t₁ ∧ step t₁ = .next t₂ ∧
      step { s with inputs := .host d b :: .host c a :: rest } = .next u₁ ∧ step u₁ = .next u₂ ∧
      t₂.ctxs = u₂.ctxs ∧ t₂.wire = u₂.wire ∧ t₂.priv = u₂.priv ∧ t₂.par = u₂.par ∧ t₂.inputs = u₂.inputs ∧
      t₁.resp = u₂.resp ∧ t₂.resp = u₁.resp

/-- R15: the commands of the codec, the checksum unit, the classifier and the transmit path leave bank `F` alone, and all but the two
decodes leave bank `H` alone. -/
def Obligations.BanksAreSeparate : Prop :=
  ∀ (s t : State) (i : Instr) (x y : Ctx), s.ctxs[s.cur]? = some x → exec i s = .next t → t.ctxs[s.cur]? = some y →
    (i ≠ .finit → i ≠ .gen → y.fIp = x.fIp ∧ y.fTcp = x.fTcp) ∧
    (i ≠ .decIp → y.hIp = x.hIp) ∧ (i ≠ .decTcp → y.hTcp = x.hTcp)

/-- R20: `PKT` and `PKT_LEN` are written by `GEN` only, short of a reset: no other step changes them. -/
def Obligations.OnlyGenWritesThePacketBuffer : Prop :=
  ∀ (s t : State) (c : Nat) (x : Ctx), step s = .next t → s.ctxs[c]? = some x →
    (∀ p rest, s.inputs ≠ .reset p :: rest) →
    (∀ rest, s.inputs ≠ .host c (.write 32 0x130 0x00000008#32) :: rest) →
    ∃ y, t.ctxs[c]? = some y ∧ y.pktLen = x.pktLen ∧ ∀ i, y.pktByte i = x.pktByte i

/-! ### Transmission -/

/-- R153: an arbiter step that picks a pending context, whichever it is. The second clause is the model's choice (log entry 13): R153 has no step
for a context whose slot is not valid, and an arbiter input that names one changes nothing. -/
def Obligations.ArbiterEmitsThePickedPacket : Prop :=
  ∀ (s : State) (c : Nat) (rest : List Input) (x : Ctx), s.inputs = .arb c :: rest → s.ctxs[c]? = some x →
    (∀ p, x.slot = some p → step s = .next { s with
      inputs := rest
      wire := s.wire ++ [{ ctx := c, dst := p.dst, dport := 0, bytes := p.bytes }]
      ctxs := s.ctxs.set c { x with slot := none } }) ∧
    (x.slot = none → step s = .next { s with inputs := rest })

/-- Where no input is left, the arbiter takes a step for some pending context, and a quiescent engine stays as it is (R153, R210). That the
arbiter then works by itself at every step, with a free value for its pick, and that a quiescent engine still takes steps, is the model's
choice (log entry 5). -/
def Obligations.IdleArbiterServesAPendingContext : Prop :=
  ∀ s : State, s.inputs = [] →
    ((∃ (c : Nat) (x : Ctx), s.ctxs[c]? = some x ∧ x.slot ≠ none) →
      ∃ (c : Nat) (x : Ctx) (p : Slot), s.ctxs[c]? = some x ∧ x.slot = some p ∧
      step s = .next { s with
        wire := s.wire ++ [{ ctx := c, dst := p.dst, dport := 0, bytes := p.bytes }]
        ctxs := s.ctxs.set c { x with slot := none }
        picks := s.picks + 1 }) ∧
    ((∀ (c : Nat) (x : Ctx), s.ctxs[c]? = some x → x.slot = none) → step s = .next s)

/-- R210: the engine is quiescent exactly when no host access stands before the next reset and no slot is valid; then no step but a reset
changes the contexts or `WIRE`, and it stays quiescent. That further inputs are steps at all rests on the model's choices (log entry 13 for an
arbiter input, log entry 5 for the empty list). -/
def Obligations.QuiescentEngineRests : Prop :=
  (∀ s : State, s.quiescent = true ↔
    (∀ pre c a rest, s.inputs = pre ++ .host c a :: rest → ∃ p, Input.reset p ∈ pre) ∧ ∀ x ∈ s.ctxs, x.slot = none) ∧
  ∀ s t : State, s.quiescent = true → step s = .next t → (∀ p rest, s.inputs ≠ .reset p :: rest) →
    t.ctxs = s.ctxs ∧ t.wire = s.wire ∧ t.priv = s.priv ∧ t.quiescent = true

/-- Once no input is left, as many steps as there are valid slots empty them all, and each packet is emitted exactly once, whatever the picks.
The bound is the model's choice (log entry 5): its arbiter then works at every step by itself. R154 says only that a valid slot is eventually
emitted and gives no bound in steps. -/
def Obligations.EveryPendingPacketIsEmitted : Prop :=
  ∀ s : State, s.inputs = [] →
    ∃ t, core.run (s.ctxs.countP fun x => x.slot.isSome) s = .next t ∧
      (∀ x ∈ t.ctxs, x.slot = none) ∧
      ∃ l, t.wire = s.wire ++ l ∧ l.Perm (owed 0 s.ctxs)

/-- R51 and R155: what a context has handed over, in order, changes by a successful `TX` only, which adds `TX_DST` and the packet as it
is then; no step reorders, alters or loses any of it, but that a reset drops the pending packet. -/
def Obligations.PacketsLeaveInOrderUnchanged : Prop :=
  ∀ (s t : State) (c : Nat), step s = .next t →
    sent t c = sent s c ∨
    (∃ rest x, s.inputs = .host c (.write 32 0x130 0x0000000B#32) :: rest ∧ s.ctxs[c]? = some x ∧
      sent t c = sent s c ++ [(x.txDst, x.packet)]) ∨
    (∃ p rest, s.inputs = .reset p :: rest ∧
      sent t c = (s.wire.filter fun r => r.ctx == c).map fun r => (r.dst, r.bytes))

/-- R200, in every good state: a pending packet stays until the arbiter emits it or a reset drops it; until then `TX` completes
`TXBUSY` and does nothing, and `GEN` and `FINIT` leave the packet alone. -/
def Obligations.PendingPacketIsKept : Prop :=
  ∀ (s : State) (c : Nat) (x : Ctx) (p : Slot), s.Good → s.ctxs[c]? = some x → x.slot = some p →
    (∀ t d a rest, s.inputs = .host d a :: rest → step s = .next t →
      ∃ y, t.ctxs[c]? = some y ∧ y.slot = some p) ∧
    (s.cur = c → exec .tx s = .next (withCur s { x with cc := .txBusy })) ∧
    (s.cur = c → ∃ y, exec .gen s = .next (withCur s y) ∧ y.slot = some p) ∧
    (s.cur = c → ∃ y, exec .finit s = .next (withCur s y) ∧ y.slot = some p)

/-- `WIRE` only grows, by one record at most in a step (R22, R193). -/
def Obligations.WireOnlyGrows : Prop :=
  ∀ s t : State, step s = .next t → ∃ l, t.wire = s.wire ++ l ∧ l.length ≤ 1

/-! ### Privilege -/

/-- R174: `FATAL` gates nothing. A command does the same with the flag set and clear, but for the flag. -/
def Obligations.FatalGatesNothing : Prop :=
  ∀ (s : State) (x : Ctx) (i : Instr) (b : Bool), s.ctxs[s.cur]? = some x →
    ∃ y f, exec i s = .next (withCur s y) ∧
      exec i (withCur s { x with fatal := b }) = .next (withCur s { y with fatal := f }) ∧
      (y.cc ≠ .noPriv → y.fatal = x.fatal ∧ f = b) ∧ (y.cc = .noPriv → y.fatal = true ∧ f = true)

/-- R178: no command changes `PRIV`; `TXOPEN` and `TX` complete `NOPRIV` exactly without it, and every other command does the same with
and without it. -/
def Obligations.PrivilegeGatesTransmissionOnly : Prop :=
  ∀ (s : State) (x : Ctx) (i : Instr) (b : Bool), s.ctxs[s.cur]? = some x → ∃ y,
    exec i s = .next (withCur s y) ∧
    (y.cc = .noPriv ↔ (i = .txopen ∨ i = .tx) ∧ s.priv = false) ∧
    (i ≠ .txopen → i ≠ .tx → exec i { s with priv := b } = .next { withCur s y with priv := b })

/-- Without the privilege nothing is ever sent: from a good state with `PRIV` = 0, no run without a reset adds a record to `WIRE`,
whatever the hosts do (R174, R178, R151). -/
def Obligations.NothingIsSentWithoutPrivilege : Prop :=
  ∀ (s t : State) (k : Nat), s.Good → s.priv = false → (∀ p, Input.reset p ∉ s.inputs) →
    core.run k s = .next t → t.wire = s.wire

/-! ### Invariants -/

/-- Every step keeps the invariant `State.Good`; in it, `PKT` has a specified byte exactly at the positions below `PKT_LEN` (R20, R192), and `PKT_LEN`
is 0 or at least 40, and then after a `FINIT` (R128, R131). -/
def Obligations.EveryStepKeepsTheInvariant : Prop :=
  ∀ s t : State, s.Good → step s = .next t → t.Good

/-- The invariant holds right after reset, whatever the parameters, and so in `State.reset`. -/
def Obligations.ResetIsGood : Prop :=
  State.reset.Good ∧ ∀ par priv n, 1 ≤ n → (State.resetWith par priv n).Good

/-- A run whose inputs name contexts the engine has never stops: no command, access, arbiter step or reset faults or is refused
(R71, R170, R177). It rests on two choices of the model: after the last input the arbiter steps by itself and a quiescent engine stays as it is (log
entry 5), and an arbiter input at an invalid slot is a step that changes nothing (log entry 13). -/
def Obligations.SafeRunsNeverStop : Prop :=
  ∀ (s : State) (k : Nat), s.safe = true → ∃ t, core.run k s = .next t

/-! ### Laws of the codec, the checksum, the factory and the classifier -/

/-- R98: with whatever in bank `H`, an encode and then a decode at the same offset bring the registers back, even if they were
overwritten in between; `ARG_LEN` is any length of at least 20 that fits. -/
def Obligations.EncodeThenDecodeRoundTrips : Prop :=
  ∀ (s : State) (x : Ctx) (n : Word), s.ctxs[s.cur]? = some x → 20 ≤ n.toNat → x.argOff.toNat + n.toNat ≤ s.par.bufCap →
    (∀ h : IpHdr, ∃ y z, exec .encIp s = .next (withCur s y) ∧
      exec .decIp (withCur s { y with hIp := h, argLen := n }) = .next (withCur s z) ∧ z.hIp = x.hIp ∧ z.cc = .ok) ∧
    (∀ h : TcpHdr, ∃ y z, exec .encTcp s = .next (withCur s y) ∧
      exec .decTcp (withCur s { y with hTcp := h, argLen := n }) = .next (withCur s z) ∧ z.hTcp = x.hTcp ∧ z.cc = .ok)

/-- R100. -/
def Obligations.DecodeThenEncode : Prop :=
  ∀ (s : List Byte), s.length = 20 →
    (∃ h, decodeIp s = some h ∧ encodeIp h = s) ∧
    (∃ t, decodeTcp s = some t ∧ encodeTcp t = s.set 12 (s.getD 12 0 &&& 0xF0#8) ∧
      (encodeTcp t = s ↔ s.getD 12 0 &&& 0x0F#8 = 0))

/-- R110: the checksum is what the four steps give. -/
def Obligations.ChecksumFollowsTheFourSteps : Prop :=
  ∀ s : List Byte, IsChecksum (fun k => s.getD k 0) s.length (checksum s)

/-- R111(b) and (d): two folds suffice for what `BUF` can hold; the result is 0xFFFF exactly when every byte is zero, and 0x0000 exactly
when the folded sum is 0xFFFF. -/
def Obligations.ChecksumExtremes : Prop :=
  ∀ s : List Byte,
    (s.length ≤ 65536 → fold^[2] (wordSum (fun k => s.getD k 0) s.length) ≤ 0xFFFF) ∧
    (checksum s = 0xFFFF#16 ↔ ∀ b ∈ s, b = 0) ∧
    (checksum s = 0x0000#16 ↔ ∃ k, fold^[k] (wordSum (fun i => s.getD i 0) s.length) = 0xFFFF)

/-- R112: a buffer with a zero field at an even offset verifies once its checksum is written there. -/
def Obligations.ChecksumVerifiesItself : Prop :=
  ∀ pre post : List Byte, pre.length % 2 = 0 →
    checksum (pre ++ be16 (checksum (pre ++ [0, 0] ++ post)) ++ post) = 0

/-- R116: the host's check of a segment. `PSH`, with the `n` bytes of the segment right behind the pseudo-header, and then `CSUM` over
both give the checksum of pseudo-header and segment. -/
def Obligations.HostChecksASegment : Prop :=
  ∀ (s : State) (x : Ctx) (n : Nat), s.ctxs[s.cur]? = some x → x.argOff.toNat + (12 + n) ≤ s.par.bufCap →
    ∃ y z, exec .psh s = .next (withCur s y) ∧
      exec .csum (withCur s { y with argLen := BitVec.ofNat 32 (12 + n) }) = .next (withCur s z) ∧ z.cc = .ok ∧
      z.resCsum = checksum (pseudo x.phSrc x.phDst x.phProto x.phLen ++ x.memRead (x.argOff.toNat + 12) n)

/-- R131: the packet after a successful `GEN`. -/
def Obligations.GeneratedPacketVerifies : Prop :=
  ∀ (s : State) (x : Ctx), s.ctxs[s.cur]? = some x → x.fvalid = true →
    x.argOff.toNat + x.argLen.toNat ≤ s.par.bufCap → x.argLen.toNat ≤ 65495 →
    ∃ y, exec .gen s = .next (withCur s y) ∧ y.cc = .ok ∧
      y.packet.length = 40 + x.argLen.toNat ∧
      y.packet.take 20 = encodeIp x.fIp ∧
      (y.packet.drop 20).take 20 = encodeTcp { x.fTcp with csum := y.fTcp.csum } ∧
      y.packet.drop 40 = x.memRead x.argOff.toNat x.argLen.toNat ∧
      checksum (pseudo x.fIp.src x.fIp.dst s.par.protoTcp (BitVec.ofNat 16 (20 + x.argLen.toNat)) ++ y.packet.drop 20) = 0 ∧
      ∀ (s' : State) (x' : Ctx) (v : Half), s'.par = s.par → s'.ctxs[s'.cur]? = some x' → x'.fvalid = true →
        x'.argOff.toNat + x'.argLen.toNat ≤ s'.par.bufCap →
        x'.fIp = x.fIp → x'.fTcp = { x.fTcp with csum := v } →
        x'.memRead x'.argOff.toNat x'.argLen.toNat = x.memRead x.argOff.toNat x.argLen.toNat →
        ∃ y', exec .gen s' = .next (withCur s' y') ∧ y'.packet = y.packet

/-- R130: a successful `GEN` leaves its checksum in `F_TCP_CSUM`, where the host reads it and the packet holds it; whatever was there
before never enters it. -/
def Obligations.GenLeavesItsChecksum : Prop :=
  ∀ (s : State) (x : Ctx) (v : Half), s.ctxs[s.cur]? = some x → x.fvalid = true →
    x.argOff.toNat + x.argLen.toNat ≤ s.par.bufCap → x.argLen.toNat ≤ 65495 →
    ∃ y k, exec .gen s = .next (withCur s y) ∧
      exec .gen (withCur s { x with fTcp := { x.fTcp with csum := v } }) = .next (withCur s y) ∧
      IsChecksum (genInput s.par x x.argLen.toNat) (32 + x.argLen.toNat) k ∧
      (0x0CC, 16, k.toNat) ∈ registerFile y ∧ y.pktByte 36 = byteOf 2 k.toNat 0 ∧ y.pktByte 37 = byteOf 2 k.toNat 1 ∧
      y = { x with fTcp := { x.fTcp with csum := k }, pkt := y.pkt, pktLen := y.pktLen, fill := y.fill, cc := .ok }

/-- R144, clause by clause, for any protocol numbers; that TCP is not ICMP is what clause (d) needs. -/
def Obligations.ClassifierCornerCases : Prop :=
  ∀ par : Params,
  (∀ d : List Byte, d.length < 20 → classify par d = none) ∧
  (∀ d : List Byte, 20 ≤ d.length → d.length < 22 →
    (byteAt d 9 ≠ par.protoIcmp → classify par d = some .notApplicable) ∧ (byteAt d 9 = par.protoIcmp → classify par d = none)) ∧
  (∀ d : List Byte, 22 ≤ d.length → classify par d ≠ none) ∧
  (∀ d : List Byte, par.protoTcp ≠ par.protoIcmp → 20 ≤ d.length → byteAt d 9 = par.protoTcp →
    classify par d = some .notApplicable) ∧
  (∀ d : List Byte, 22 ≤ d.length → byteAt d 9 = par.protoIcmp → byteAt d 20 = 3 → byteAt d 21 = 0 →
    classify par d = some .error) ∧
  (∀ d e : List Byte, 22 ≤ d.length → d.length = e.length → d[9]? = e[9]? → d[20]? = e[20]? → d[21]? = e[21]? →
    classify par d = classify par e)
end

