-- ==== Sys2Proof/Laws/Bytes.lean ====
section
/-! SUPPORT. Lengths of the byte strings the engine builds, and the big-endian primitives undone. -/

namespace Sys2Proof.Machine

@[simp] theorem length_be16 (v : Half) : (be16 v).length = 2 := rfl

@[simp] theorem length_be32 (v : Word) : (be32 v).length = 4 := rfl

@[simp] theorem length_encodeIp (h : IpHdr) : (encodeIp h).length = 20 := rfl

@[simp] theorem length_encodeTcp (t : TcpHdr) : (encodeTcp t).length = 20 := rfl

@[simp] theorem length_pseudo (a b : Word) (p : Byte) (n : Half) : (pseudo a b p n).length = 12 := rfl

theorem joinNibbles_toNat (a b : Nibble) : (joinNibbles a b).toNat = a.toNat * 16 + b.toNat := by
  rw [joinNibbles, BitVec.toNat_append, ← Nat.shiftLeft_add_eq_or_of_lt b.isLt, Nat.shiftLeft_eq]

/-- The word of two bytes as a number (R5). -/
theorem joinBytes_toNat (a b : Byte) : (joinBytes a b).toNat = a.toNat * 256 + b.toNat := by
  rw [joinBytes, BitVec.toNat_append, ← Nat.shiftLeft_add_eq_or_of_lt b.isLt, Nat.shiftLeft_eq]

theorem joinHalves_toNat (a b : Half) : (joinHalves a b).toNat = a.toNat * 65536 + b.toNat := by
  rw [joinHalves, BitVec.toNat_append, ← Nat.shiftLeft_add_eq_or_of_lt b.isLt, Nat.shiftLeft_eq]

/-- A bit slice as a number. -/
theorem slice_toNat {w : Nat} (v : BitVec w) (lo n : Nat) : (v.extractLsb' lo n).toNat = v.toNat / 2 ^ lo % 2 ^ n := by
  rw [BitVec.extractLsb'_toNat, Nat.shiftRight_eq_div_pow]

/-- The high nibble of a byte made of two nibbles. -/
@[simp] theorem high_joinNibbles (a b : Nibble) : (joinNibbles a b).extractLsb' 4 4 = a := by
  apply BitVec.eq_of_toNat_eq
  have := a.isLt
  have := b.isLt
  rw [slice_toNat, joinNibbles_toNat]
  omega

/-- The low nibble of a byte made of two nibbles. -/
@[simp] theorem low_joinNibbles (a b : Nibble) : (joinNibbles a b).extractLsb' 0 4 = b := by
  apply BitVec.eq_of_toNat_eq
  have := b.isLt
  rw [slice_toNat, joinNibbles_toNat]
  omega

/-- The nibbles of a byte put together again. -/
@[simp] theorem joinNibbles_slices (v : Byte) : joinNibbles (v.extractLsb' 4 4) (v.extractLsb' 0 4) = v := by
  apply BitVec.eq_of_toNat_eq
  have := v.isLt
  rw [joinNibbles_toNat, slice_toNat, slice_toNat]
  omega

@[simp] theorem high_joinBytes (a b : Byte) : (joinBytes a b).extractLsb' 8 8 = a := by
  apply BitVec.eq_of_toNat_eq
  have := a.isLt
  have := b.isLt
  rw [slice_toNat, joinBytes_toNat]
  omega

@[simp] theorem low_joinBytes (a b : Byte) : (joinBytes a b).extractLsb' 0 8 = b := by
  apply BitVec.eq_of_toNat_eq
  have := b.isLt
  rw [slice_toNat, joinBytes_toNat]
  omega

/-- The two bytes of a 16-bit value put together again. -/
@[simp] theorem joinBytes_slices (v : Half) : joinBytes (v.extractLsb' 8 8) (v.extractLsb' 0 8) = v := by
  apply BitVec.eq_of_toNat_eq
  have := v.isLt
  rw [joinBytes_toNat, slice_toNat, slice_toNat]
  omega

/-- The four bytes of a 32-bit value put together again. -/
@[simp] theorem joinHalves_slices (v : Word) :
    joinHalves (joinBytes (v.extractLsb' 24 8) (v.extractLsb' 16 8)) (joinBytes (v.extractLsb' 8 8) (v.extractLsb' 0 8)) = v := by
  apply BitVec.eq_of_toNat_eq
  have := v.isLt
  rw [joinHalves_toNat, joinBytes_toNat, joinBytes_toNat, slice_toNat, slice_toNat, slice_toNat, slice_toNat]
  omega

/-- The bytes of a 32-bit value made of four bytes are those bytes. -/
@[simp] theorem be32_joinHalves (a b c d : Byte) : be32 (joinHalves (joinBytes a b) (joinBytes c d)) = [a, b, c, d] := by
  have := a.isLt
  have := b.isLt
  have := c.isLt
  have := d.isLt
  simp only [be32, List.cons.injEq, and_true]
  refine ⟨?_, ?_, ?_, ?_⟩ <;>
  · apply BitVec.eq_of_toNat_eq
    rw [slice_toNat, joinHalves_toNat, joinBytes_toNat, joinBytes_toNat]
    omega

/-- The bytes of a 16-bit value made of two bytes are those bytes. -/
@[simp] theorem be16_joinBytes (a b : Byte) : be16 (joinBytes a b) = [a, b] := by simp [be16]

end Sys2Proof.Machine
end

