-- ==== Sys2Proof/Laws/Checksum.lean ====
section
/-! SUPPORT. The arithmetic of the Internet checksum (spec R110, R111): what folding leaves, and how word sums add up. -/

namespace Sys2Proof.Machine

/-- What end-around carry folding leaves of a sum: 0 of 0, else the representative of the sum modulo 0xFFFF in 1 to 0xFFFF
(R111(c), (d)). -/
def folded (sum : Nat) : Nat := if sum = 0 then 0 else (sum - 1) % 0xFFFF + 1

theorem folded_le (sum : Nat) : folded sum ≤ 0xFFFF := by unfold folded; split <;> omega

theorem folded_of_le {sum : Nat} (h : sum ≤ 0xFFFF) : folded sum = sum := by unfold folded; split <;> omega

/-- One fold does not change what is left in the end. -/
theorem folded_fold (sum : Nat) : folded (sum % 65536 + sum / 65536) = folded sum := by
  unfold folded; split <;> split <;> omega

/-- Folding with fuel enough reaches the folded value. -/
theorem foldCarry_eq_folded (fuel sum : Nat) (h : sum ≤ fuel) : foldCarry fuel sum = folded sum := by
  induction fuel generalizing sum with
  | zero => rw [Nat.le_zero.mp h]; rfl
  | succ n ih =>
    rw [foldCarry]
    split
    · rw [folded_of_le ‹_›]
    · rw [ih _ (by omega), folded_fold]

theorem foldedSum_eq (s : List Byte) : foldedSum s = folded (sumWords (padEven s)) := foldCarry_eq_folded _ _ le_rfl

/-- The checksum as a number. -/
theorem checksum_toNat (s : List Byte) : (checksum s).toNat = 0xFFFF - folded (sumWords (padEven s)) := by
  have := folded_le (sumWords (padEven s))
  rw [checksum, foldedSum_eq, BitVec.toNat_ofNat]
  omega

@[simp] theorem sumWords_nil : sumWords [] = 0 := rfl

@[simp] theorem sumWords_cons_cons (a b : Byte) (s : List Byte) :
    sumWords (a :: b :: s) = (joinBytes a b).toNat + sumWords s := rfl

/-- The word sum of two strings put together at an even position. -/
theorem sumWords_append (s r : List Byte) (h : s.length % 2 = 0) : sumWords (s ++ r) = sumWords s + sumWords r := by
  match s, h with
  | [], _ => simp
  | [_], h => simp at h
  | a :: b :: s, h =>
    have hs : s.length % 2 = 0 := by simp only [List.length_cons] at h; omega
    simp only [List.cons_append, sumWords_cons_cons, sumWords_append s r hs]
    omega

theorem padEven_append (s r : List Byte) (h : s.length % 2 = 0) : padEven (s ++ r) = s ++ padEven r := by
  unfold padEven
  rw [List.length_append]
  have : (s.length + r.length) % 2 = r.length % 2 := by omega
  rw [this]
  split <;> simp

theorem sumWords_be16 (v : Half) : sumWords (be16 v) = v.toNat := by
  simp [be16]

end Sys2Proof.Machine
end

