-- ==== Sys2Proof/Laws/Memory.lean ====
section
/-! SUPPORT. The laws of a buffer: a read after a write, a write leaves every other position alone, and every operation keeps the
canonical form. -/

namespace Sys2Proof.Machine

@[simp] theorem Memory.read_nil (a : Nat) : Memory.read [] a = none := rfl

/-- A read after a write of one byte, at every position. -/
theorem Memory.read_write (m : Memory) (a b : Nat) (v : Byte) :
    Memory.read (Memory.write m a v) b = if b = a then some v else Memory.read m b := by
  induction m with
  | nil => simp [Memory.write, Memory.read]
  | cons cell m ih =>
    obtain ⟨k, u⟩ := cell
    simp only [Memory.write]
    split
    · simp [Memory.read]
    · split
      · rename_i h1 h2
        subst h2
        by_cases h : b = a <;> simp [Memory.read, h]
      · rename_i h1 h2
        by_cases h : b = k
        · have : b ≠ a := fun e => h2 (e.symm.trans h)
          simp [Memory.read, h, Ne.symm h2]
        · simp [Memory.read, h, ih]

@[simp] theorem Memory.read_write_same (m : Memory) (a : Nat) (v : Byte) :
    Memory.read (Memory.write m a v) a = some v := by simp [Memory.read_write]

theorem Memory.read_write_other (m : Memory) {a b : Nat} (v : Byte) (h : b ≠ a) :
    Memory.read (Memory.write m a v) b = Memory.read m b := by simp [Memory.read_write, h]

/-- A read after a write of a byte string, at every position. -/
theorem Memory.read_writeBytes (s : List Byte) (m : Memory) (a b : Nat) :
    Memory.read (Memory.writeBytes m a s) b =
      if a ≤ b ∧ b < a + s.length then s[b - a]? else Memory.read m b := by
  induction s generalizing m a with
  | nil => simp [Memory.writeBytes]
  | cons v s ih =>
    rw [Memory.writeBytes, ih, Memory.read_write]
    by_cases h : b = a
    · subst h
      simp
    · by_cases h1 : a + 1 ≤ b ∧ b < a + 1 + s.length
      · have h2 : a ≤ b ∧ b < a + (v :: s).length := by simp; omega
        have h3 : b - a = b - (a + 1) + 1 := by omega
        simp only [h1, h2, and_self, if_true]
        rw [h3, List.getElem?_cons_succ]
      · have h2 : ¬ (a ≤ b ∧ b < a + (v :: s).length) := by simp; omega
        simp only [h1, h2, if_false, h]

/-- Reading a buffer that holds exactly a byte string. -/
theorem Memory.read_ofBytes (s : List Byte) (a b : Nat) :
    Memory.read (Memory.ofBytes a s) b = if a ≤ b then s[b - a]? else none := by
  induction s generalizing a with
  | nil => simp [Memory.ofBytes]
  | cons v s ih =>
    rw [Memory.ofBytes, Memory.read, ih]
    by_cases h : b = a
    · subst h
      simp
    · by_cases h1 : a + 1 ≤ b
      · have h2 : b - a = b - (a + 1) + 1 := by omega
        rw [if_neg h, if_pos h1, if_pos (by omega), h2, List.getElem?_cons_succ]
      · rw [if_neg h, if_neg h1, if_neg (by omega)]

@[simp] theorem Memory.length_ofBytes (s : List Byte) (a : Nat) : (Memory.ofBytes a s).length = s.length := by
  induction s generalizing a with
  | nil => rfl
  | cons v s ih => simp [Memory.ofBytes, ih]

theorem Memory.wfFrom_mono {lo lo' cap : Nat} (h : lo' ≤ lo) {m : Memory} (hm : Memory.wfFrom lo cap m = true) :
    Memory.wfFrom lo' cap m = true := by
  cases m with
  | nil => rfl
  | cons cell m =>
    simp only [Memory.wfFrom, Bool.and_eq_true, decide_eq_true_eq] at hm ⊢
    exact ⟨⟨by omega, hm.1.2⟩, hm.2⟩

theorem Memory.write_wfFrom (m : Memory) (lo cap a : Nat) (v : Byte) (hlo : lo ≤ a) (ha : a < cap)
    (hm : Memory.wfFrom lo cap m = true) : Memory.wfFrom lo cap (Memory.write m a v) = true := by
  induction m generalizing lo with
  | nil => simp [Memory.write, Memory.wfFrom, hlo, ha]
  | cons cell m ih =>
    obtain ⟨k, u⟩ := cell
    simp only [Memory.wfFrom, Bool.and_eq_true, decide_eq_true_eq] at hm
    simp only [Memory.write]
    split
    · simp only [Memory.wfFrom, Bool.and_eq_true, decide_eq_true_eq]
      exact ⟨⟨hlo, ha⟩, ⟨by omega, hm.1.2⟩, hm.2⟩
    · split
      · rename_i h1 h2
        subst h2
        simp only [Memory.wfFrom, Bool.and_eq_true, decide_eq_true_eq]
        exact ⟨⟨hlo, ha⟩, hm.2⟩
      · simp only [Memory.wfFrom, Bool.and_eq_true, decide_eq_true_eq]
        exact ⟨hm.1, ih (k + 1) (by omega) hm.2⟩

/-- A write of one byte inside the buffer keeps the canonical form. -/
theorem Memory.write_wf {cap : Nat} {m : Memory} (hm : Memory.wf cap m = true) {a : Nat} (ha : a < cap) (v : Byte) :
    Memory.wf cap (Memory.write m a v) = true := Memory.write_wfFrom m 0 cap a v (Nat.zero_le a) ha hm

/-- A write of a byte string inside the buffer keeps the canonical form. -/
theorem Memory.writeBytes_wf {cap : Nat} (s : List Byte) {m : Memory} (hm : Memory.wf cap m = true) {a : Nat}
    (ha : a + s.length ≤ cap) : Memory.wf cap (Memory.writeBytes m a s) = true := by
  induction s generalizing m a with
  | nil => exact hm
  | cons v s ih =>
    simp only [List.length_cons] at ha
    exact ih (Memory.write_wf hm (by omega) v) (by omega)

theorem Memory.ofBytes_wfFrom {cap : Nat} (s : List Byte) (a : Nat) (ha : a + s.length ≤ cap) :
    Memory.wfFrom a cap (Memory.ofBytes a s) = true := by
  induction s generalizing a with
  | nil => rfl
  | cons v s ih =>
    simp only [List.length_cons] at ha
    simp only [Memory.ofBytes, Memory.wfFrom, Bool.and_eq_true, decide_eq_true_eq]
    exact ⟨⟨le_refl a, by omega⟩, ih (a + 1) (by omega)⟩

/-- A buffer that holds exactly a byte string that fits is in canonical form. -/
theorem Memory.ofBytes_wf {cap : Nat} (s : List Byte) (h : s.length ≤ cap) :
    Memory.wf cap (Memory.ofBytes 0 s) = true := Memory.ofBytes_wfFrom s 0 (by omega)

@[simp] theorem Memory.nil_wf (cap : Nat) : Memory.wf cap [] = true := rfl

end Sys2Proof.Machine
end

