-- ==== Sys2Proof/Laws/State.lean ====
section
/-! SUPPORT. One lemma per field per named update of a context or of the state, each true by rfl: with them no proof unfolds an update. -/

namespace Sys2Proof.Machine

@[simp] theorem Ctx.complete_hIp (x : Ctx) (cc : Completion) : (x.complete cc).hIp = x.hIp := rfl
@[simp] theorem Ctx.complete_hTcp (x : Ctx) (cc : Completion) : (x.complete cc).hTcp = x.hTcp := rfl
@[simp] theorem Ctx.complete_fIp (x : Ctx) (cc : Completion) : (x.complete cc).fIp = x.fIp := rfl
@[simp] theorem Ctx.complete_fTcp (x : Ctx) (cc : Completion) : (x.complete cc).fTcp = x.fTcp := rfl
@[simp] theorem Ctx.complete_argOff (x : Ctx) (cc : Completion) : (x.complete cc).argOff = x.argOff := rfl
@[simp] theorem Ctx.complete_argLen (x : Ctx) (cc : Completion) : (x.complete cc).argLen = x.argLen := rfl
@[simp] theorem Ctx.complete_phSrc (x : Ctx) (cc : Completion) : (x.complete cc).phSrc = x.phSrc := rfl
@[simp] theorem Ctx.complete_phDst (x : Ctx) (cc : Completion) : (x.complete cc).phDst = x.phDst := rfl
@[simp] theorem Ctx.complete_phProto (x : Ctx) (cc : Completion) : (x.complete cc).phProto = x.phProto := rfl
@[simp] theorem Ctx.complete_phLen (x : Ctx) (cc : Completion) : (x.complete cc).phLen = x.phLen := rfl
@[simp] theorem Ctx.complete_fiSrc (x : Ctx) (cc : Completion) : (x.complete cc).fiSrc = x.fiSrc := rfl
@[simp] theorem Ctx.complete_fiDst (x : Ctx) (cc : Completion) : (x.complete cc).fiDst = x.fiDst := rfl
@[simp] theorem Ctx.complete_fiSport (x : Ctx) (cc : Completion) : (x.complete cc).fiSport = x.fiSport := rfl
@[simp] theorem Ctx.complete_fiDport (x : Ctx) (cc : Completion) : (x.complete cc).fiDport = x.fiDport := rfl
@[simp] theorem Ctx.complete_txDst (x : Ctx) (cc : Completion) : (x.complete cc).txDst = x.txDst := rfl
@[simp] theorem Ctx.complete_cmd (x : Ctx) (cc : Completion) : (x.complete cc).cmd = x.cmd := rfl
@[simp] theorem Ctx.complete_cc (x : Ctx) (cc : Completion) : (x.complete cc).cc = cc := rfl
@[simp] theorem Ctx.complete_fvalid (x : Ctx) (cc : Completion) : (x.complete cc).fvalid = x.fvalid := rfl
@[simp] theorem Ctx.complete_txen (x : Ctx) (cc : Completion) : (x.complete cc).txen = x.txen := rfl
@[simp] theorem Ctx.complete_fatal (x : Ctx) (cc : Completion) : (x.complete cc).fatal = x.fatal := rfl
@[simp] theorem Ctx.complete_resCsum (x : Ctx) (cc : Completion) : (x.complete cc).resCsum = x.resCsum := rfl
@[simp] theorem Ctx.complete_resCls (x : Ctx) (cc : Completion) : (x.complete cc).resCls = x.resCls := rfl
@[simp] theorem Ctx.complete_pktLen (x : Ctx) (cc : Completion) : (x.complete cc).pktLen = x.pktLen := rfl
@[simp] theorem Ctx.complete_buf (x : Ctx) (cc : Completion) : (x.complete cc).buf = x.buf := rfl
@[simp] theorem Ctx.complete_pkt (x : Ctx) (cc : Completion) : (x.complete cc).pkt = x.pkt := rfl
@[simp] theorem Ctx.complete_slot (x : Ctx) (cc : Completion) : (x.complete cc).slot = x.slot := rfl
@[simp] theorem Ctx.complete_fill (x : Ctx) (cc : Completion) : (x.complete cc).fill = x.fill := rfl

@[simp] theorem Ctx.raise_hIp (x : Ctx) (cc : Completion) : (x.raise cc).hIp = x.hIp := rfl
@[simp] theorem Ctx.raise_hTcp (x : Ctx) (cc : Completion) : (x.raise cc).hTcp = x.hTcp := rfl
@[simp] theorem Ctx.raise_fIp (x : Ctx) (cc : Completion) : (x.raise cc).fIp = x.fIp := rfl
@[simp] theorem Ctx.raise_fTcp (x : Ctx) (cc : Completion) : (x.raise cc).fTcp = x.fTcp := rfl
@[simp] theorem Ctx.raise_argOff (x : Ctx) (cc : Completion) : (x.raise cc).argOff = x.argOff := rfl
@[simp] theorem Ctx.raise_argLen (x : Ctx) (cc : Completion) : (x.raise cc).argLen = x.argLen := rfl
@[simp] theorem Ctx.raise_phSrc (x : Ctx) (cc : Completion) : (x.raise cc).phSrc = x.phSrc := rfl
@[simp] theorem Ctx.raise_phDst (x : Ctx) (cc : Completion) : (x.raise cc).phDst = x.phDst := rfl
@[simp] theorem Ctx.raise_phProto (x : Ctx) (cc : Completion) : (x.raise cc).phProto = x.phProto := rfl
@[simp] theorem Ctx.raise_phLen (x : Ctx) (cc : Completion) : (x.raise cc).phLen = x.phLen := rfl
@[simp] theorem Ctx.raise_fiSrc (x : Ctx) (cc : Completion) : (x.raise cc).fiSrc = x.fiSrc := rfl
@[simp] theorem Ctx.raise_fiDst (x : Ctx) (cc : Completion) : (x.raise cc).fiDst = x.fiDst := rfl
@[simp] theorem Ctx.raise_fiSport (x : Ctx) (cc : Completion) : (x.raise cc).fiSport = x.fiSport := rfl
@[simp] theorem Ctx.raise_fiDport (x : Ctx) (cc : Completion) : (x.raise cc).fiDport = x.fiDport := rfl
@[simp] theorem Ctx.raise_txDst (x : Ctx) (cc : Completion) : (x.raise cc).txDst = x.txDst := rfl
@[simp] theorem Ctx.raise_cmd (x : Ctx) (cc : Completion) : (x.raise cc).cmd = x.cmd := rfl
@[simp] theorem Ctx.raise_cc (x : Ctx) (cc : Completion) : (x.raise cc).cc = cc := rfl
@[simp] theorem Ctx.raise_fvalid (x : Ctx) (cc : Completion) : (x.raise cc).fvalid = x.fvalid := rfl
@[simp] theorem Ctx.raise_txen (x : Ctx) (cc : Completion) : (x.raise cc).txen = x.txen := rfl
@[simp] theorem Ctx.raise_fatal (x : Ctx) (cc : Completion) : (x.raise cc).fatal = x.fatal := rfl
@[simp] theorem Ctx.raise_resCsum (x : Ctx) (cc : Completion) : (x.raise cc).resCsum = x.resCsum := rfl
@[simp] theorem Ctx.raise_resCls (x : Ctx) (cc : Completion) : (x.raise cc).resCls = x.resCls := rfl
@[simp] theorem Ctx.raise_pktLen (x : Ctx) (cc : Completion) : (x.raise cc).pktLen = x.pktLen := rfl
@[simp] theorem Ctx.raise_buf (x : Ctx) (cc : Completion) : (x.raise cc).buf = x.buf := rfl
@[simp] theorem Ctx.raise_pkt (x : Ctx) (cc : Completion) : (x.raise cc).pkt = x.pkt := rfl
@[simp] theorem Ctx.raise_slot (x : Ctx) (cc : Completion) : (x.raise cc).slot = x.slot := rfl
@[simp] theorem Ctx.raise_fill (x : Ctx) (cc : Completion) : (x.raise cc).fill = x.fill := rfl

@[simp] theorem Ctx.raiseNoPriv_hIp (x : Ctx) : x.raiseNoPriv.hIp = x.hIp := rfl
@[simp] theorem Ctx.raiseNoPriv_hTcp (x : Ctx) : x.raiseNoPriv.hTcp = x.hTcp := rfl
@[simp] theorem Ctx.raiseNoPriv_fIp (x : Ctx) : x.raiseNoPriv.fIp = x.fIp := rfl
@[simp] theorem Ctx.raiseNoPriv_fTcp (x : Ctx) : x.raiseNoPriv.fTcp = x.fTcp := rfl
@[simp] theorem Ctx.raiseNoPriv_argOff (x : Ctx) : x.raiseNoPriv.argOff = x.argOff := rfl
@[simp] theorem Ctx.raiseNoPriv_argLen (x : Ctx) : x.raiseNoPriv.argLen = x.argLen := rfl
@[simp] theorem Ctx.raiseNoPriv_phSrc (x : Ctx) : x.raiseNoPriv.phSrc = x.phSrc := rfl
@[simp] theorem Ctx.raiseNoPriv_phDst (x : Ctx) : x.raiseNoPriv.phDst = x.phDst := rfl
@[simp] theorem Ctx.raiseNoPriv_phProto (x : Ctx) : x.raiseNoPriv.phProto = x.phProto := rfl
@[simp] theorem Ctx.raiseNoPriv_phLen (x : Ctx) : x.raiseNoPriv.phLen = x.phLen := rfl
@[simp] theorem Ctx.raiseNoPriv_fiSrc (x : Ctx) : x.raiseNoPriv.fiSrc = x.fiSrc := rfl
@[simp] theorem Ctx.raiseNoPriv_fiDst (x : Ctx) : x.raiseNoPriv.fiDst = x.fiDst := rfl
@[simp] theorem Ctx.raiseNoPriv_fiSport (x : Ctx) : x.raiseNoPriv.fiSport = x.fiSport := rfl
@[simp] theorem Ctx.raiseNoPriv_fiDport (x : Ctx) : x.raiseNoPriv.fiDport = x.fiDport := rfl
@[simp] theorem Ctx.raiseNoPriv_txDst (x : Ctx) : x.raiseNoPriv.txDst = x.txDst := rfl
@[simp] theorem Ctx.raiseNoPriv_cmd (x : Ctx) : x.raiseNoPriv.cmd = x.cmd := rfl
@[simp] theorem Ctx.raiseNoPriv_cc (x : Ctx) : x.raiseNoPriv.cc = .noPriv := rfl
@[simp] theorem Ctx.raiseNoPriv_fvalid (x : Ctx) : x.raiseNoPriv.fvalid = x.fvalid := rfl
@[simp] theorem Ctx.raiseNoPriv_txen (x : Ctx) : x.raiseNoPriv.txen = x.txen := rfl
@[simp] theorem Ctx.raiseNoPriv_fatal (x : Ctx) : x.raiseNoPriv.fatal = true := rfl
@[simp] theorem Ctx.raiseNoPriv_resCsum (x : Ctx) : x.raiseNoPriv.resCsum = x.resCsum := rfl
@[simp] theorem Ctx.raiseNoPriv_resCls (x : Ctx) : x.raiseNoPriv.resCls = x.resCls := rfl
@[simp] theorem Ctx.raiseNoPriv_pktLen (x : Ctx) : x.raiseNoPriv.pktLen = x.pktLen := rfl
@[simp] theorem Ctx.raiseNoPriv_buf (x : Ctx) : x.raiseNoPriv.buf = x.buf := rfl
@[simp] theorem Ctx.raiseNoPriv_pkt (x : Ctx) : x.raiseNoPriv.pkt = x.pkt := rfl
@[simp] theorem Ctx.raiseNoPriv_slot (x : Ctx) : x.raiseNoPriv.slot = x.slot := rfl
@[simp] theorem Ctx.raiseNoPriv_fill (x : Ctx) : x.raiseNoPriv.fill = x.fill := rfl

@[simp] theorem Ctx.memWrite_hIp (x : Ctx) (a : Nat) (s : List Byte) : (x.memWrite a s).hIp = x.hIp := rfl
@[simp] theorem Ctx.memWrite_hTcp (x : Ctx) (a : Nat) (s : List Byte) : (x.memWrite a s).hTcp = x.hTcp := rfl
@[simp] theorem Ctx.memWrite_fIp (x : Ctx) (a : Nat) (s : List Byte) : (x.memWrite a s).fIp = x.fIp := rfl
@[simp] theorem Ctx.memWrite_fTcp (x : Ctx) (a : Nat) (s : List Byte) : (x.memWrite a s).fTcp = x.fTcp := rfl
@[simp] theorem Ctx.memWrite_argOff (x : Ctx) (a : Nat) (s : List Byte) : (x.memWrite a s).argOff = x.argOff := rfl
@[simp] theorem Ctx.memWrite_argLen (x : Ctx) (a : Nat) (s : List Byte) : (x.memWrite a s).argLen = x.argLen := rfl
@[simp] theorem Ctx.memWrite_phSrc (x : Ctx) (a : Nat) (s : List Byte) : (x.memWrite a s).phSrc = x.phSrc := rfl
@[simp] theorem Ctx.memWrite_phDst (x : Ctx) (a : Nat) (s : List Byte) : (x.memWrite a s).phDst = x.phDst := rfl
@[simp] theorem Ctx.memWrite_phProto (x : Ctx) (a : Nat) (s : List Byte) : (x.memWrite a s).phProto = x.phProto := rfl
@[simp] theorem Ctx.memWrite_phLen (x : Ctx) (a : Nat) (s : List Byte) : (x.memWrite a s).phLen = x.phLen := rfl
@[simp] theorem Ctx.memWrite_fiSrc (x : Ctx) (a : Nat) (s : List Byte) : (x.memWrite a s).fiSrc = x.fiSrc := rfl
@[simp] theorem Ctx.memWrite_fiDst (x : Ctx) (a : Nat) (s : List Byte) : (x.memWrite a s).fiDst = x.fiDst := rfl
@[simp] theorem Ctx.memWrite_fiSport (x : Ctx) (a : Nat) (s : List Byte) : (x.memWrite a s).fiSport = x.fiSport := rfl
@[simp] theorem Ctx.memWrite_fiDport (x : Ctx) (a : Nat) (s : List Byte) : (x.memWrite a s).fiDport = x.fiDport := rfl
@[simp] theorem Ctx.memWrite_txDst (x : Ctx) (a : Nat) (s : List Byte) : (x.memWrite a s).txDst = x.txDst := rfl
@[simp] theorem Ctx.memWrite_cmd (x : Ctx) (a : Nat) (s : List Byte) : (x.memWrite a s).cmd = x.cmd := rfl
@[simp] theorem Ctx.memWrite_cc (x : Ctx) (a : Nat) (s : List Byte) : (x.memWrite a s).cc = x.cc := rfl
@[simp] theorem Ctx.memWrite_fvalid (x : Ctx) (a : Nat) (s : List Byte) : (x.memWrite a s).fvalid = x.fvalid := rfl
@[simp] theorem Ctx.memWrite_txen (x : Ctx) (a : Nat) (s : List Byte) : (x.memWrite a s).txen = x.txen := rfl
@[simp] theorem Ctx.memWrite_fatal (x : Ctx) (a : Nat) (s : List Byte) : (x.memWrite a s).fatal = x.fatal := rfl
@[simp] theorem Ctx.memWrite_resCsum (x : Ctx) (a : Nat) (s : List Byte) : (x.memWrite a s).resCsum = x.resCsum := rfl
@[simp] theorem Ctx.memWrite_resCls (x : Ctx) (a : Nat) (s : List Byte) : (x.memWrite a s).resCls = x.resCls := rfl
@[simp] theorem Ctx.memWrite_pktLen (x : Ctx) (a : Nat) (s : List Byte) : (x.memWrite a s).pktLen = x.pktLen := rfl
@[simp] theorem Ctx.memWrite_buf (x : Ctx) (a : Nat) (s : List Byte) : (x.memWrite a s).buf = x.buf.writeBytes a s := rfl
@[simp] theorem Ctx.memWrite_pkt (x : Ctx) (a : Nat) (s : List Byte) : (x.memWrite a s).pkt = x.pkt := rfl
@[simp] theorem Ctx.memWrite_slot (x : Ctx) (a : Nat) (s : List Byte) : (x.memWrite a s).slot = x.slot := rfl
@[simp] theorem Ctx.memWrite_fill (x : Ctx) (a : Nat) (s : List Byte) : (x.memWrite a s).fill = x.fill := rfl

@[simp] theorem Ctx.genPacket_hIp (p : Params) (x : Ctx) (d : List Byte) : (x.genPacket p d).hIp = x.hIp := rfl
@[simp] theorem Ctx.genPacket_hTcp (p : Params) (x : Ctx) (d : List Byte) : (x.genPacket p d).hTcp = x.hTcp := rfl
@[simp] theorem Ctx.genPacket_fIp (p : Params) (x : Ctx) (d : List Byte) : (x.genPacket p d).fIp = x.fIp := rfl
@[simp] theorem Ctx.genPacket_fTcp (p : Params) (x : Ctx) (d : List Byte) :
    (x.genPacket p d).fTcp = { x.fTcp with csum := genChecksum p x.fIp x.fTcp d } := rfl
@[simp] theorem Ctx.genPacket_argOff (p : Params) (x : Ctx) (d : List Byte) : (x.genPacket p d).argOff = x.argOff := rfl
@[simp] theorem Ctx.genPacket_argLen (p : Params) (x : Ctx) (d : List Byte) : (x.genPacket p d).argLen = x.argLen := rfl
@[simp] theorem Ctx.genPacket_phSrc (p : Params) (x : Ctx) (d : List Byte) : (x.genPacket p d).phSrc = x.phSrc := rfl
@[simp] theorem Ctx.genPacket_phDst (p : Params) (x : Ctx) (d : List Byte) : (x.genPacket p d).phDst = x.phDst := rfl
@[simp] theorem Ctx.genPacket_phProto (p : Params) (x : Ctx) (d : List Byte) : (x.genPacket p d).phProto = x.phProto := rfl
@[simp] theorem Ctx.genPacket_phLen (p : Params) (x : Ctx) (d : List Byte) : (x.genPacket p d).phLen = x.phLen := rfl
@[simp] theorem Ctx.genPacket_fiSrc (p : Params) (x : Ctx) (d : List Byte) : (x.genPacket p d).fiSrc = x.fiSrc := rfl
@[simp] theorem Ctx.genPacket_fiDst (p : Params) (x : Ctx) (d : List Byte) : (x.genPacket p d).fiDst = x.fiDst := rfl
@[simp] theorem Ctx.genPacket_fiSport (p : Params) (x : Ctx) (d : List Byte) : (x.genPacket p d).fiSport = x.fiSport := rfl
@[simp] theorem Ctx.genPacket_fiDport (p : Params) (x : Ctx) (d : List Byte) : (x.genPacket p d).fiDport = x.fiDport := rfl
@[simp] theorem Ctx.genPacket_txDst (p : Params) (x : Ctx) (d : List Byte) : (x.genPacket p d).txDst = x.txDst := rfl
@[simp] theorem Ctx.genPacket_cmd (p : Params) (x : Ctx) (d : List Byte) : (x.genPacket p d).cmd = x.cmd := rfl
@[simp] theorem Ctx.genPacket_cc (p : Params) (x : Ctx) (d : List Byte) : (x.genPacket p d).cc = x.cc := rfl
@[simp] theorem Ctx.genPacket_fvalid (p : Params) (x : Ctx) (d : List Byte) : (x.genPacket p d).fvalid = x.fvalid := rfl
@[simp] theorem Ctx.genPacket_txen (p : Params) (x : Ctx) (d : List Byte) : (x.genPacket p d).txen = x.txen := rfl
@[simp] theorem Ctx.genPacket_fatal (p : Params) (x : Ctx) (d : List Byte) : (x.genPacket p d).fatal = x.fatal := rfl
@[simp] theorem Ctx.genPacket_resCsum (p : Params) (x : Ctx) (d : List Byte) : (x.genPacket p d).resCsum = x.resCsum := rfl
@[simp] theorem Ctx.genPacket_resCls (p : Params) (x : Ctx) (d : List Byte) : (x.genPacket p d).resCls = x.resCls := rfl
@[simp] theorem Ctx.genPacket_pktLen (p : Params) (x : Ctx) (d : List Byte) :
    (x.genPacket p d).pktLen = BitVec.ofNat 16 (40 + d.length) := rfl
@[simp] theorem Ctx.genPacket_buf (p : Params) (x : Ctx) (d : List Byte) : (x.genPacket p d).buf = x.buf := rfl
@[simp] theorem Ctx.genPacket_pkt (p : Params) (x : Ctx) (d : List Byte) :
    (x.genPacket p d).pkt = Memory.ofBytes 0 (encodeIp x.fIp ++ encodeTcp { x.fTcp with csum := genChecksum p x.fIp x.fTcp d } ++ d) := rfl
@[simp] theorem Ctx.genPacket_slot (p : Params) (x : Ctx) (d : List Byte) : (x.genPacket p d).slot = x.slot := rfl
@[simp] theorem Ctx.genPacket_fill (p : Params) (x : Ctx) (d : List Byte) :
    (x.genPacket p d).fill = { x.fill with gens := x.fill.gens + 1 } := rfl

@[simp] theorem Ctx.loadFactory_hIp (p : Params) (x : Ctx) : (x.loadFactory p).hIp = x.hIp := rfl
@[simp] theorem Ctx.loadFactory_hTcp (p : Params) (x : Ctx) : (x.loadFactory p).hTcp = x.hTcp := rfl
@[simp] theorem Ctx.loadFactory_fIp (p : Params) (x : Ctx) :
    (x.loadFactory p).fIp =
      { ver := p.ipVersion, ihl := 5, tos := p.defTos, len := 0, id := p.defId, frag := p.defFrag
        ttl := p.defTtl, proto := p.protoTcp, csum := 0, src := x.fiSrc, dst := x.fiDst } := rfl
@[simp] theorem Ctx.loadFactory_fTcp (p : Params) (x : Ctx) :
    (x.loadFactory p).fTcp =
      { sport := x.fiSport, dport := x.fiDport, seq := 0, ack := 0, doff := 5, flags := 0, win := p.defWindow
        csum := 0, urg := 0 } := rfl
@[simp] theorem Ctx.loadFactory_argOff (p : Params) (x : Ctx) : (x.loadFactory p).argOff = x.argOff := rfl
@[simp] theorem Ctx.loadFactory_argLen (p : Params) (x : Ctx) : (x.loadFactory p).argLen = x.argLen := rfl
@[simp] theorem Ctx.loadFactory_phSrc (p : Params) (x : Ctx) : (x.loadFactory p).phSrc = x.phSrc := rfl
@[simp] theorem Ctx.loadFactory_phDst (p : Params) (x : Ctx) : (x.loadFactory p).phDst = x.phDst := rfl
@[simp] theorem Ctx.loadFactory_phProto (p : Params) (x : Ctx) : (x.loadFactory p).phProto = x.phProto := rfl
@[simp] theorem Ctx.loadFactory_phLen (p : Params) (x : Ctx) : (x.loadFactory p).phLen = x.phLen := rfl
@[simp] theorem Ctx.loadFactory_fiSrc (p : Params) (x : Ctx) : (x.loadFactory p).fiSrc = x.fiSrc := rfl
@[simp] theorem Ctx.loadFactory_fiDst (p : Params) (x : Ctx) : (x.loadFactory p).fiDst = x.fiDst := rfl
@[simp] theorem Ctx.loadFactory_fiSport (p : Params) (x : Ctx) : (x.loadFactory p).fiSport = x.fiSport := rfl
@[simp] theorem Ctx.loadFactory_fiDport (p : Params) (x : Ctx) : (x.loadFactory p).fiDport = x.fiDport := rfl
@[simp] theorem Ctx.loadFactory_txDst (p : Params) (x : Ctx) : (x.loadFactory p).txDst = x.txDst := rfl
@[simp] theorem Ctx.loadFactory_cmd (p : Params) (x : Ctx) : (x.loadFactory p).cmd = x.cmd := rfl
@[simp] theorem Ctx.loadFactory_cc (p : Params) (x : Ctx) : (x.loadFactory p).cc = x.cc := rfl
@[simp] theorem Ctx.loadFactory_txen (p : Params) (x : Ctx) : (x.loadFactory p).txen = x.txen := rfl
@[simp] theorem Ctx.loadFactory_fatal (p : Params) (x : Ctx) : (x.loadFactory p).fatal = x.fatal := rfl
@[simp] theorem Ctx.loadFactory_resCsum (p : Params) (x : Ctx) : (x.loadFactory p).resCsum = x.resCsum := rfl
@[simp] theorem Ctx.loadFactory_resCls (p : Params) (x : Ctx) : (x.loadFactory p).resCls = x.resCls := rfl
@[simp] theorem Ctx.loadFactory_pktLen (p : Params) (x : Ctx) : (x.loadFactory p).pktLen = x.pktLen := rfl
@[simp] theorem Ctx.loadFactory_buf (p : Params) (x : Ctx) : (x.loadFactory p).buf = x.buf := rfl
@[simp] theorem Ctx.loadFactory_pkt (p : Params) (x : Ctx) : (x.loadFactory p).pkt = x.pkt := rfl
@[simp] theorem Ctx.loadFactory_slot (p : Params) (x : Ctx) : (x.loadFactory p).slot = x.slot := rfl
@[simp] theorem Ctx.loadFactory_fill (p : Params) (x : Ctx) : (x.loadFactory p).fill = x.fill := rfl
@[simp] theorem Ctx.loadFactory_fvalid (p : Params) (x : Ctx) : (x.loadFactory p).fvalid = true := rfl

@[simp] theorem State.setCtx_ctxs (s : State) (c : Nat) (x : Ctx) : (s.setCtx c x).ctxs = s.ctxs.set c x := rfl
@[simp] theorem State.setCtx_wire (s : State) (c : Nat) (x : Ctx) : (s.setCtx c x).wire = s.wire := rfl
@[simp] theorem State.setCtx_priv (s : State) (c : Nat) (x : Ctx) : (s.setCtx c x).priv = s.priv := rfl
@[simp] theorem State.setCtx_inputs (s : State) (c : Nat) (x : Ctx) : (s.setCtx c x).inputs = s.inputs := rfl
@[simp] theorem State.setCtx_cur (s : State) (c : Nat) (x : Ctx) : (s.setCtx c x).cur = s.cur := rfl
@[simp] theorem State.setCtx_resp (s : State) (c : Nat) (x : Ctx) : (s.setCtx c x).resp = s.resp := rfl
@[simp] theorem State.setCtx_epoch (s : State) (c : Nat) (x : Ctx) : (s.setCtx c x).epoch = s.epoch := rfl
@[simp] theorem State.setCtx_par (s : State) (c : Nat) (x : Ctx) : (s.setCtx c x).par = s.par := rfl
@[simp] theorem State.setCtx_picks (s : State) (c : Nat) (x : Ctx) : (s.setCtx c x).picks = s.picks := rfl

@[simp] theorem State.emitPacket_ctxs (s : State) (c : Nat) (x : Ctx) (p : Slot) :
    (s.emitPacket c x p).ctxs = s.ctxs.set c { x with slot := none } := rfl
@[simp] theorem State.emitPacket_wire (s : State) (c : Nat) (x : Ctx) (p : Slot) :
    (s.emitPacket c x p).wire = s.wire ++ [{ ctx := c, dst := p.dst, dport := 0, bytes := p.bytes }] := rfl
@[simp] theorem State.emitPacket_priv (s : State) (c : Nat) (x : Ctx) (p : Slot) :
    (s.emitPacket c x p).priv = s.priv := rfl
@[simp] theorem State.emitPacket_inputs (s : State) (c : Nat) (x : Ctx) (p : Slot) :
    (s.emitPacket c x p).inputs = s.inputs := rfl
@[simp] theorem State.emitPacket_cur (s : State) (c : Nat) (x : Ctx) (p : Slot) :
    (s.emitPacket c x p).cur = s.cur := rfl
@[simp] theorem State.emitPacket_resp (s : State) (c : Nat) (x : Ctx) (p : Slot) :
    (s.emitPacket c x p).resp = s.resp := rfl
@[simp] theorem State.emitPacket_epoch (s : State) (c : Nat) (x : Ctx) (p : Slot) :
    (s.emitPacket c x p).epoch = s.epoch := rfl
@[simp] theorem State.emitPacket_par (s : State) (c : Nat) (x : Ctx) (p : Slot) :
    (s.emitPacket c x p).par = s.par := rfl
@[simp] theorem State.emitPacket_picks (s : State) (c : Nat) (x : Ctx) (p : Slot) :
    (s.emitPacket c x p).picks = s.picks := rfl

@[simp] theorem State.resetWith_ctxs (p : Params) (g : Bool) (n : Nat) : (State.resetWith p g n).ctxs = resetCtxs 0 0 n := rfl
@[simp] theorem State.resetWith_wire (p : Params) (g : Bool) (n : Nat) : (State.resetWith p g n).wire = [] := rfl
@[simp] theorem State.resetWith_priv (p : Params) (g : Bool) (n : Nat) : (State.resetWith p g n).priv = g := rfl
@[simp] theorem State.resetWith_par (p : Params) (g : Bool) (n : Nat) : (State.resetWith p g n).par = p := rfl
@[simp] theorem State.resetWith_inputs (p : Params) (g : Bool) (n : Nat) : (State.resetWith p g n).inputs = [] := rfl

@[simp] theorem State.resetAgain_ctxs (s : State) (p : Bool) : (s.resetAgain p).ctxs = resetCtxs (s.epoch + 1) 0 s.ctxs.length := rfl
@[simp] theorem State.resetAgain_wire (s : State) (p : Bool) : (s.resetAgain p).wire = s.wire := rfl
@[simp] theorem State.resetAgain_priv (s : State) (p : Bool) : (s.resetAgain p).priv = p := rfl
@[simp] theorem State.resetAgain_inputs (s : State) (p : Bool) : (s.resetAgain p).inputs = s.inputs := rfl
@[simp] theorem State.resetAgain_cur (s : State) (p : Bool) : (s.resetAgain p).cur = 0 := rfl
@[simp] theorem State.resetAgain_resp (s : State) (p : Bool) : (s.resetAgain p).resp = none := rfl
@[simp] theorem State.resetAgain_epoch (s : State) (p : Bool) : (s.resetAgain p).epoch = s.epoch + 1 := rfl
@[simp] theorem State.resetAgain_par (s : State) (p : Bool) : (s.resetAgain p).par = s.par := rfl
@[simp] theorem State.resetAgain_picks (s : State) (p : Bool) : (s.resetAgain p).picks = s.picks := rfl

end Sys2Proof.Machine
end

