-- ==== Sys2Proof/Laws/Ops.lean ====
section
/-! SUPPORT. What each shared operation can do, said once: running an effect on the current context, reading and writing `BUF`, reading
`PKT`, putting a command's output at `ARG_OFF`. -/

namespace Sys2Proof

/-- R4 lets `BUF_CAP` be 44 at least. -/
theorem Params.le_bufCap (p : Params) : 44 ≤ p.bufCap := by unfold Params.bufCap; omega

/-- R4 lets `BUF_CAP` be 65536 at most, so that `BUF` and `PKT` do not overlap (R41). -/
theorem Params.bufCap_le (p : Params) : p.bufCap ≤ 65536 := by
  have := p.bufRoom.isLt
  unfold Params.bufCap
  omega

end Sys2Proof

namespace Sys2Proof.Machine

/-- On a context that exists, a command completes with the effect on that context. -/
theorem onCtx_of_some {s : State} {x : Ctx} (h : s.ctxs[s.cur]? = some x) (f : Ctx → Ctx) :
    onCtx s f = .next (s.setCtx s.cur (f x)) := by simp [onCtx, h]

/-- Without the context there is no port to run on. -/
theorem onCtx_of_none {s : State} (h : s.ctxs[s.cur]? = none) (f : Ctx → Ctx) : onCtx s f = .fault .noContext := by
  simp [onCtx, h]

/-- All a command can do when it answers a next state. -/
theorem onCtx_next {s t : State} {f : Ctx → Ctx} (h : onCtx s f = .next t) :
    ∃ x, s.ctxs[s.cur]? = some x ∧ t = s.setCtx s.cur (f x) := by
  cases hx : s.ctxs[s.cur]? with
  | none => simp [onCtx, hx] at h
  | some x => exact ⟨x, rfl, by simpa [onCtx, hx] using h.symm⟩

/-- A command never refuses. -/
theorem onCtx_not_refused (s : State) (f : Ctx → Ctx) (r : Refusal) : onCtx s f ≠ .refused r := by
  unfold onCtx; split <;> simp

theorem State.setCtx_self {s : State} {c : Nat} (h : c < s.ctxs.length) (x : Ctx) :
    (s.setCtx c x).ctxs[c]? = some x := by simp [h]

theorem State.setCtx_other (s : State) {c d : Nat} (h : c ≠ d) (x : Ctx) :
    (s.setCtx c x).ctxs[d]? = s.ctxs[d]? := by simp [h]

/-- Every byte of `BUF` after a byte string was written: a new one inside the string, the old one outside. -/
theorem Ctx.bufByte_memWrite (x : Ctx) (a : Nat) (s : List Byte) (b : Nat) :
    (x.memWrite a s).bufByte b = if a ≤ b ∧ b < a + s.length then s.getD (b - a) 0 else x.bufByte b := by
  unfold Ctx.bufByte
  simp only [Ctx.memWrite_buf, Ctx.memWrite_fill, Memory.read_writeBytes]
  split
  · rename_i v h
    split at h
    · rename_i hc
      rw [if_pos hc, List.getD_eq_getElem?_getD, h]
      rfl
    · rename_i hc
      rw [if_neg hc, h]
  · rename_i h
    split at h
    · rename_i hc
      rw [List.getElem?_eq_none_iff] at h
      omega
    · rename_i hc
      rw [if_neg hc, h]

/-- A byte of `BUF` depends on nothing but the written bytes and the key of the free ones. -/
theorem Ctx.bufByte_congr {x y : Ctx} (hb : x.buf = y.buf) (hf : x.fill = y.fill) (a : Nat) :
    x.bufByte a = y.bufByte a := by unfold Ctx.bufByte; rw [hb, hf]

@[simp] theorem Ctx.bufByte_complete (x : Ctx) (cc : Completion) (a : Nat) : (x.complete cc).bufByte a = x.bufByte a := rfl

@[simp] theorem Ctx.pktByte_complete (x : Ctx) (cc : Completion) (a : Nat) : (x.complete cc).pktByte a = x.pktByte a := rfl

@[simp] theorem Ctx.length_memRead (x : Ctx) (a n : Nat) : (x.memRead a n).length = n := by simp [Ctx.memRead]

/-- The bytes a command reads are the bytes of `BUF`. -/
theorem Ctx.getElem?_memRead (x : Ctx) (a n i : Nat) :
    (x.memRead a n)[i]? = if i < n then some (x.bufByte (a + i)) else none := by
  unfold Ctx.memRead
  by_cases h : i < n <;> simp [h]

@[simp] theorem Ctx.length_packet (x : Ctx) : x.packet.length = x.pktLen.toNat := by simp [Ctx.packet]

/-- The bytes `TX` copies are the bytes of `PKT`. -/
theorem Ctx.getElem?_packet (x : Ctx) (i : Nat) :
    x.packet[i]? = if i < x.pktLen.toNat then some (x.pktByte i) else none := by
  unfold Ctx.packet
  by_cases h : i < x.pktLen.toNat <;> simp [h]

/-- The bounds check fires exactly where the bytes do not lie inside `BUF`. -/
theorem Ctx.outside_eq_true {p : Params} {x : Ctx} {n : Nat} : x.outside p n = true ↔ p.bufCap < x.argOff.toNat + n := by
  rw [Ctx.outside, decide_eq_true_eq]

theorem Ctx.outside_eq_false {p : Params} {x : Ctx} {n : Nat} : x.outside p n = false ↔ x.argOff.toNat + n ≤ p.bufCap := by
  rw [Ctx.outside, decide_eq_false_iff_not, Nat.not_lt]

/-- A command's output where it fits. -/
theorem Ctx.emit_of_fits {p : Params} {x : Ctx} {s : List Byte} (h : x.argOff.toNat + s.length ≤ p.bufCap) :
    x.emit p s = (x.memWrite x.argOff.toNat s).complete .ok := by simp [Ctx.emit, Ctx.outside_eq_false.mpr h]

/-- A command's output where it does not fit. -/
theorem Ctx.emit_of_not_fits {p : Params} {x : Ctx} {s : List Byte} (h : p.bufCap < x.argOff.toNat + s.length) :
    x.emit p s = x.raise .range := by simp [Ctx.emit, Ctx.outside_eq_true.mpr h]

end Sys2Proof.Machine
end

