-- ==== Sys2Proof/Laws/Regs.lean ====
section
/-! SUPPORT. What a host write of a register leaves alone. -/

namespace Sys2Proof.Machine

theorem ipGet_ipSet_other (h : IpHdr) (v : Word) {f g : IpField} (ne : g ≠ f) : ipGet (ipSet h v f) g = ipGet h g := by
  cases f <;> cases g <;> first | rfl | exact absurd rfl ne

theorem tcpGet_tcpSet_other (t : TcpHdr) (v : Word) {f g : TcpField} (ne : g ≠ f) : tcpGet (tcpSet t v f) g = tcpGet t g := by
  cases f <;> cases g <;> first | rfl | exact absurd rfl ne

/-- A write of one register does not show in another. -/
theorem Ctx.getReg_setReg_other (x : Ctx) (v : Word) {r q : Reg} (h : q ≠ r) : (x.setReg v r).getReg q = x.getReg q := by
  cases r with
  | ip b f =>
    cases q with
    | ip b' g =>
      cases b <;> cases b'
      · exact ipGet_ipSet_other x.hIp v (fun e => h (by rw [e]))
      · rfl
      · rfl
      · exact ipGet_ipSet_other x.fIp v (fun e => h (by rw [e]))
    | tcp b' g => cases b <;> cases b' <;> rfl
    | _ => cases b <;> rfl
  | tcp b f =>
    cases q with
    | tcp b' g =>
      cases b <;> cases b'
      · exact tcpGet_tcpSet_other x.hTcp v (fun e => h (by rw [e]))
      · rfl
      · rfl
      · exact tcpGet_tcpSet_other x.fTcp v (fun e => h (by rw [e]))
    | ip b' g => cases b <;> cases b' <;> rfl
    | _ => cases b <;> rfl
  | _ =>
    cases q with
    | ip b' g => cases b' <;> rfl
    | tcp b' g => cases b' <;> rfl
    | _ => first | rfl | exact absurd rfl h

/-- All that no register write changes. -/
theorem Ctx.setReg_frame (x : Ctx) (v : Word) (r : Reg) :
    (x.setReg v r).cc = x.cc ∧ (x.setReg v r).fvalid = x.fvalid ∧ (x.setReg v r).txen = x.txen ∧
    (x.setReg v r).fatal = x.fatal ∧ (x.setReg v r).resCsum = x.resCsum ∧ (x.setReg v r).resCls = x.resCls ∧
    (x.setReg v r).pktLen = x.pktLen ∧ (x.setReg v r).buf = x.buf ∧ (x.setReg v r).pkt = x.pkt ∧
    (x.setReg v r).slot = x.slot ∧ (x.setReg v r).fill = x.fill := by
  cases r with
  | ip b f => cases b <;> exact ⟨rfl, rfl, rfl, rfl, rfl, rfl, rfl, rfl, rfl, rfl, rfl⟩
  | tcp b f => cases b <;> exact ⟨rfl, rfl, rfl, rfl, rfl, rfl, rfl, rfl, rfl, rfl, rfl⟩
  | _ => exact ⟨rfl, rfl, rfl, rfl, rfl, rfl, rfl, rfl, rfl, rfl, rfl⟩

@[simp] theorem Ctx.setReg_cc (x : Ctx) (v : Word) (r : Reg) : (x.setReg v r).cc = x.cc := (x.setReg_frame v r).1
@[simp] theorem Ctx.setReg_fvalid (x : Ctx) (v : Word) (r : Reg) : (x.setReg v r).fvalid = x.fvalid :=
  (x.setReg_frame v r).2.1
@[simp] theorem Ctx.setReg_txen (x : Ctx) (v : Word) (r : Reg) : (x.setReg v r).txen = x.txen :=
  (x.setReg_frame v r).2.2.1
@[simp] theorem Ctx.setReg_fatal (x : Ctx) (v : Word) (r : Reg) : (x.setReg v r).fatal = x.fatal :=
  (x.setReg_frame v r).2.2.2.1
@[simp] theorem Ctx.setReg_resCsum (x : Ctx) (v : Word) (r : Reg) : (x.setReg v r).resCsum = x.resCsum :=
  (x.setReg_frame v r).2.2.2.2.1
@[simp] theorem Ctx.setReg_resCls (x : Ctx) (v : Word) (r : Reg) : (x.setReg v r).resCls = x.resCls :=
  (x.setReg_frame v r).2.2.2.2.2.1
@[simp] theorem Ctx.setReg_pktLen (x : Ctx) (v : Word) (r : Reg) : (x.setReg v r).pktLen = x.pktLen :=
  (x.setReg_frame v r).2.2.2.2.2.2.1
@[simp] theorem Ctx.setReg_buf (x : Ctx) (v : Word) (r : Reg) : (x.setReg v r).buf = x.buf :=
  (x.setReg_frame v r).2.2.2.2.2.2.2.1
@[simp] theorem Ctx.setReg_pkt (x : Ctx) (v : Word) (r : Reg) : (x.setReg v r).pkt = x.pkt :=
  (x.setReg_frame v r).2.2.2.2.2.2.2.2.1
@[simp] theorem Ctx.setReg_slot (x : Ctx) (v : Word) (r : Reg) : (x.setReg v r).slot = x.slot :=
  (x.setReg_frame v r).2.2.2.2.2.2.2.2.2.1
@[simp] theorem Ctx.setReg_fill (x : Ctx) (v : Word) (r : Reg) : (x.setReg v r).fill = x.fill :=
  (x.setReg_frame v r).2.2.2.2.2.2.2.2.2.2

end Sys2Proof.Machine
end

