-- ==== Sys2Proof/Laws/HostPort.lean ====
section
/-! SUPPORT. The register map and the host port, each said once; and all that one step can do. -/

namespace Sys2Proof.Machine

/-- Every register is found at its offset. -/
@[simp] theorem regAt_regOffset (r : Reg) : regAt (regOffset r) = some r := by
  cases r <;> first | rfl | (rename_i b f; cases b <;> cases f <;> rfl)

/-- Only a register is found at an offset. -/
theorem regOffset_of_regAt {a : Nat} {r : Reg} (h : regAt a = some r) : regOffset r = a := by
  have := List.find?_some h
  simpa using this

@[simp] theorem target_reg (p : Params) (r : Reg) : target p 32 (regOffset r) = some (.reg r) := by simp [target]

@[simp] theorem target_cmd (p : Params) : target p 32 0x130 = some (.reg .cmd) := target_reg p .cmd

/-- A byte access inside the window of `BUF`. -/
theorem target_buf {p : Params} {i : Nat} (h : i < p.bufCap) : target p 8 (0x10000 + i) = some (.buf i) := by
  unfold target bufBase
  rw [if_neg (by decide), if_pos rfl, if_pos (by omega)]
  simp

/-- A byte access inside the window of `PKT`. -/
theorem target_pkt {p : Params} {i : Nat} (h : i < Config.pktCap) : target p 8 (0x20000 + i) = some (.pkt i) := by
  have := p.bufCap_le
  unfold target bufBase pktBase
  rw [if_neg (by decide), if_pos rfl, if_neg (by omega), if_pos (by omega)]
  simp

/-- Every command is an effect on the current context. -/
def effect (p : Params) (priv : Bool) : Instr → Ctx → Ctx
  | .nop => Ctx.nop
  | .encIp => Ctx.encIp p
  | .decIp => Ctx.decIp p
  | .encTcp => Ctx.encTcp p
  | .decTcp => Ctx.decTcp p
  | .csum => Ctx.csum p
  | .psh => Ctx.psh p
  | .finit => Ctx.finit p
  | .gen => Ctx.gen p
  | .icls => Ctx.icls p
  | .txopen => Ctx.txopen priv
  | .tx => Ctx.tx priv

theorem exec_eq_onCtx (i : Instr) (s : State) : exec i s = onCtx s (effect s.par s.priv i) := by cases i <;> rfl

/-- The effect of a command word: the command it names, else `ILLEGAL`. -/
def wordEffect (p : Params) (priv : Bool) (w : Word) (x : Ctx) : Ctx :=
  match decode w with
  | .ok i => effect p priv i x
  | .error _ => x.raise .illegal

theorem runCommand_eq (w : Word) (s : State) : runCommand w s = onCtx s (wordEffect s.par s.priv w) := by
  unfold runCommand wordEffect
  cases decode w with
  | ok i => exact exec_eq_onCtx i s
  | error e => rfl

/-- The effect of a write access on its context, and the response to it. -/
def writeEffect (p : Params) (priv : Bool) (width addr : Nat) (data : Word) (x : Ctx) : Ctx × Resp :=
  match target p width addr with
  | some (.reg .cmd) => (wordEffect p priv data { x with cmd := data }, .done)
  | some (.reg r) => if regWritable r then (x.setReg data r, .done) else (x, .error)
  | some (.buf i) => (x.memWrite i [data.setWidth 8], .done)
  | some (.pkt _) => (x, .error)
  | none => (x, .error)

/-- The effect of any access on its context, and the response to it. It depends on the context, `PRIV` and the parameters only (R12). -/
def accessEffect (p : Params) (priv : Bool) (a : Access) (x : Ctx) : Ctx × Resp :=
  match a with
  | .read width addr => (x, x.hostRead p width addr)
  | .write width addr data => writeEffect p priv width addr data x

theorem State.set_same {s : State} {c : Nat} {x : Ctx} (h : s.ctxs[c]? = some x) : s.ctxs.set c x = s.ctxs := by
  apply List.ext_getElem?
  intro d
  rw [List.getElem?_set]
  split
  · rename_i e
    subst e
    have := (List.getElem?_eq_some_iff.mp h).1
    rw [if_pos this, h]
  · rfl

/-- All that an access at an existing host port does. -/
theorem hostAccess_of_some {s : State} {c : Nat} {x : Ctx} (h : s.ctxs[c]? = some x) (a : Access) :
    hostAccess c a s =
      .next { s with
        cur := c
        resp := some (accessEffect s.par s.priv a x).2
        ctxs := s.ctxs.set c (accessEffect s.par s.priv a x).1 } := by
  have hc : c < s.ctxs.length := (List.getElem?_eq_some_iff.mp h).1
  have hset := State.set_same h
  cases a with
  | read width addr => simp [hostAccess, h, accessEffect, hset]
  | write width addr data =>
    simp only [hostAccess, h, accessEffect, hostWrite, writeEffect]
    cases target s.par width addr with
    | none => simp [hset]
    | some tg =>
      cases tg with
      | buf i => simp [State.setCtx]
      | pkt i => simp [hset]
      | reg r =>
        cases r with
        | cmd => simp [runCommand_eq, onCtx, State.setCtx, hc, Ctx.setReg]
        | status => simp [regWritable, hset]
        | resCsum => simp [regWritable, hset]
        | resCls => simp [regWritable, hset]
        | pktLen => simp [regWritable, hset]
        | ip b f => simp [regWritable, State.setCtx]
        | tcp b f => simp [regWritable, State.setCtx]
        | argOff => simp [regWritable, State.setCtx]
        | argLen => simp [regWritable, State.setCtx]
        | phSrc => simp [regWritable, State.setCtx]
        | phDst => simp [regWritable, State.setCtx]
        | phProto => simp [regWritable, State.setCtx]
        | phLen => simp [regWritable, State.setCtx]
        | fiSrc => simp [regWritable, State.setCtx]
        | fiDst => simp [regWritable, State.setCtx]
        | fiSport => simp [regWritable, State.setCtx]
        | fiDport => simp [regWritable, State.setCtx]
        | txDst => simp [regWritable, State.setCtx]

/-- All that an access can do to its context: nothing, run a command word, write a register, write a byte of `BUF` (R47). -/
theorem accessEffect_cases (p : Params) (priv : Bool) (a : Access) (x : Ctx) :
    (accessEffect p priv a x).1 = x ∨
    (∃ w, a = .write 32 0x130 w ∧ (accessEffect p priv a x).1 = wordEffect p priv w { x with cmd := w }) ∨
    (∃ r v, regWritable r = true ∧ r ≠ .cmd ∧ a = .write 32 (regOffset r) v ∧ (accessEffect p priv a x).1 = x.setReg v r) ∨
    (∃ i v, i < p.bufCap ∧ a = .write 8 (0x10000 + i) v ∧ (accessEffect p priv a x).1 = x.memWrite i [v.setWidth 8]) := by
  cases a with
  | read width addr => exact .inl rfl
  | write width addr data =>
    simp only [accessEffect, writeEffect]
    unfold target
    by_cases h32 : width = 32
    · subst h32
      rw [if_pos rfl]
      cases hr : regAt addr with
      | none => exact .inl rfl
      | some r =>
        have e := regOffset_of_regAt hr
        simp only [Option.map_some]
        by_cases hc : r = .cmd
        · subst hc
          exact .inr (.inl ⟨data, by rw [← e]; rfl, rfl⟩)
        · by_cases hw : regWritable r = true
          · refine .inr (.inr (.inl ⟨r, data, hw, hc, by rw [← e], ?_⟩))
            cases r <;> simp_all [regWritable]
          · left
            cases r <;> simp_all [regWritable]
    · rw [if_neg h32]
      by_cases h8 : width = 8
      · subst h8
        rw [if_pos rfl]
        by_cases hb : bufBase ≤ addr ∧ addr < bufBase + p.bufCap
        · rw [if_pos hb]
          unfold bufBase at hb
          have e1 : addr - 65536 < p.bufCap := by omega
          have e2 : Access.write 8 addr data = .write 8 (0x10000 + (addr - 65536)) data := by
            rw [Nat.add_sub_cancel' hb.1]
          exact .inr (.inr (.inr ⟨addr - 65536, data, e1, e2, rfl⟩))
        · rw [if_neg hb]
          by_cases hp : pktBase ≤ addr ∧ addr < pktBase + Config.pktCap
          · rw [if_pos hp]; exact .inl rfl
          · rw [if_neg hp]; exact .inl rfl
      · rw [if_neg h8]; exact .inl rfl

/-- All that the step of a host access does. -/
theorem step_of_host {s : State} {c : Nat} {a : Access} {rest : List Input} {x : Ctx} (hi : s.inputs = .host c a :: rest)
    (hx : s.ctxs[c]? = some x) :
    step s = .next { s with
      inputs := rest
      cur := c
      resp := some (accessEffect s.par s.priv a x).2
      ctxs := s.ctxs.set c (accessEffect s.par s.priv a x).1 } := by
  unfold step
  rw [hi]
  exact hostAccess_of_some (s := { s with inputs := rest }) hx a

/-- The arbiter's step where the picked slot holds a packet (R153). -/
theorem State.arbiter_of_some {s : State} {c : Nat} {x : Ctx} {p : Slot} (h : s.ctxs[c]? = some x)
    (hp : x.slot = some p) : s.arbiter c = s.emitPacket c x p := by simp [State.arbiter, h, hp]

/-- All the arbiter can do with a pick: nothing, or emit the packet of a pending context. -/
theorem State.arbiter_cases (s : State) (c : Nat) :
    s.arbiter c = s ∨ ∃ x p, s.ctxs[c]? = some x ∧ x.slot = some p ∧ s.arbiter c = s.emitPacket c x p := by
  unfold State.arbiter
  split
  · exact .inl rfl
  · rename_i x hx
    split
    · exact .inl rfl
    · rename_i p hp
      exact .inr ⟨x, p, hx, hp, rfl⟩

/-- The contexts the arbiter may pick are those whose slot is valid. -/
theorem mem_pendingFrom {c : Nat} {xs : List Ctx} {d : Nat} :
    d ∈ pendingFrom c xs ↔ c ≤ d ∧ ∃ x, xs[d - c]? = some x ∧ x.slot.isSome := by
  induction xs generalizing c with
  | nil => simp [pendingFrom]
  | cons y ys ih =>
    have key : (c + 1 ≤ d ∧ ∃ x, ys[d - (c + 1)]? = some x ∧ x.slot.isSome) ↔
        (c < d ∧ ∃ x, (y :: ys)[d - c]? = some x ∧ x.slot.isSome) := by
      constructor <;> rintro ⟨h, x, hx, hs⟩
      · refine ⟨h, x, ?_, hs⟩
        rw [show d - c = d - (c + 1) + 1 by omega, List.getElem?_cons_succ, hx]
      · refine ⟨h, x, ?_, hs⟩
        rw [show d - c = d - (c + 1) + 1 by omega, List.getElem?_cons_succ] at hx
        exact hx
    unfold pendingFrom
    split
    · rename_i hy
      rw [List.mem_cons, ih, key]
      constructor
      · rintro (rfl | ⟨h, rest⟩)
        · exact ⟨le_rfl, y, by simp, hy⟩
        · exact ⟨h.le, rest⟩
      · rintro ⟨h, x, hx, hs⟩
        rcases Nat.lt_or_ge c d with h' | h'
        · exact .inr ⟨h', x, hx, hs⟩
        · exact .inl (by omega)
    · rename_i hy
      rw [ih, key]
      constructor
      · rintro ⟨h, rest⟩
        exact ⟨h.le, rest⟩
      · rintro ⟨h, x, hx, hs⟩
        rcases Nat.lt_or_ge c d with h' | h'
        · exact ⟨h', x, hx, hs⟩
        · obtain rfl : c = d := by omega
          simp at hx
          subst hx
          exact absurd hs hy

/-- A context is pending when its slot is valid. -/
theorem State.mem_pending {s : State} {d : Nat} : d ∈ s.pending ↔ ∃ x, s.ctxs[d]? = some x ∧ x.slot.isSome := by
  unfold State.pending
  rw [mem_pendingFrom]
  simp

/-- All that the idle engine does: nothing where no slot is valid, else the arbiter emits the packet of a pending context, whichever it
picks. -/
theorem State.idle_cases (s : State) :
    (s.pending = [] ∧ s.idle = s) ∨
      ∃ c x p, c ∈ s.pending ∧ s.ctxs[c]? = some x ∧ x.slot = some p ∧
        s.idle = { s.emitPacket c x p with picks := s.picks + 1 } := by
  unfold State.idle
  split
  · exact .inl ⟨‹_›, rfl⟩
  · rename_i c cs hp
    right
    have hm : (c :: cs).getD (Config.arbPick s.picks % (cs.length + 1)) c ∈ s.pending := by
      rw [hp, List.getD_eq_getElem?_getD]
      have hlt : Config.arbPick s.picks % (cs.length + 1) < (c :: cs).length := by
        simpa using Nat.mod_lt _ (Nat.succ_pos _)
      rw [List.getElem?_eq_getElem hlt]
      exact List.getElem_mem hlt
    obtain ⟨x, hx, hs⟩ := State.mem_pending.mp hm
    obtain ⟨p, hp'⟩ := Option.isSome_iff_exists.mp hs
    exact ⟨_, x, p, hm, hx, hp', by rw [State.arbiter_of_some hx hp']⟩

/-- All that one step can do when it answers a next state. -/
theorem step_cases {s t : State} (h : step s = .next t) :
    (s.inputs = [] ∧ t = s.idle) ∨
    (∃ c a rest x, s.inputs = .host c a :: rest ∧ s.ctxs[c]? = some x ∧
      t = { s with
            inputs := rest
            cur := c
            resp := some (accessEffect s.par s.priv a x).2
            ctxs := s.ctxs.set c (accessEffect s.par s.priv a x).1 }) ∨
    (∃ c rest, s.inputs = .arb c :: rest ∧ t = { s with inputs := rest }.arbiter c) ∨
    (∃ p rest, s.inputs = .reset p :: rest ∧ t = { s with inputs := rest }.resetAgain p) := by
  unfold step at h
  split at h
  · rename_i hi
    exact .inl ⟨hi, by simpa using h.symm⟩
  · rename_i i rest hi
    cases i with
    | host c a =>
      refine .inr (.inl ?_)
      cases hx : s.ctxs[c]? with
      | none => simp [runInput, hostAccess, hx] at h
      | some x =>
        have hx' : ({ s with inputs := rest } : State).ctxs[c]? = some x := hx
        rw [runInput, hostAccess_of_some hx'] at h
        exact ⟨c, a, rest, x, hi, hx, by simpa using h.symm⟩
    | arb c => exact .inr (.inr (.inl ⟨c, rest, hi, by simpa [runInput] using h.symm⟩))
    | reset p => exact .inr (.inr (.inr ⟨p, rest, hi, by simpa [runInput] using h.symm⟩))

end Sys2Proof.Machine
end

