-- ==== Sys2Proof/Laws/Commands.lean ====
section
/-! SUPPORT. All that a command can do to its context, said once: it fails with a code, or it is done. -/

namespace Sys2Proof.Machine

/-- The check of R46 written with numbers. -/
theorem Ctx.ite_outside {α : Type} (p : Params) (x : Ctx) (n : Nat) (a b : α) :
    (if x.outside p n then a else b) = if p.bufCap < x.argOff.toNat + n then a else b := by
  by_cases h : p.bufCap < x.argOff.toNat + n
  · rw [if_pos (Ctx.outside_eq_true.mpr h), if_pos h]
  · rw [if_neg (by rw [Ctx.outside_eq_true]; exact h), if_neg h]

@[simp] theorem Ctx.length_operand (x : Ctx) : x.operand.length = x.argLen.toNat := by simp [Ctx.operand]

/-- What a command has made of context `x` when it completes `OK`, the completion code apart, and under what conditions it
gets there. -/
def Done (p : Params) (priv : Bool) (i : Instr) (x y : Ctx) : Prop :=
  match i with
  | .nop => y = x
  | .encIp => x.argOff.toNat + 20 ≤ p.bufCap ∧ y = x.memWrite x.argOff.toNat (encodeIp x.hIp)
  | .decIp => x.argOff.toNat + x.argLen.toNat ≤ p.bufCap ∧ 20 ≤ x.argLen.toNat ∧
      y = { x with hIp := ipFields (x.memRead x.argOff.toNat 20) }
  | .encTcp => x.argOff.toNat + 20 ≤ p.bufCap ∧ y = x.memWrite x.argOff.toNat (encodeTcp x.hTcp)
  | .decTcp => x.argOff.toNat + x.argLen.toNat ≤ p.bufCap ∧ 20 ≤ x.argLen.toNat ∧
      y = { x with hTcp := tcpFields (x.memRead x.argOff.toNat 20) }
  | .csum => x.argOff.toNat + x.argLen.toNat ≤ p.bufCap ∧ y = { x with resCsum := checksum x.operand }
  | .psh => x.argOff.toNat + 12 ≤ p.bufCap ∧ y = x.memWrite x.argOff.toNat (pseudo x.phSrc x.phDst x.phProto x.phLen)
  | .finit => y = x.loadFactory p
  | .gen => x.fvalid = true ∧ x.argOff.toNat + x.argLen.toNat ≤ p.bufCap ∧ x.argLen.toNat ≤ 65495 ∧ y = x.genPacket p x.operand
  | .icls => x.argOff.toNat + x.argLen.toNat ≤ p.bufCap ∧ ∃ r, classify p x.operand = some r ∧ y = { x with resCls := r.code }
  | .txopen => priv = true ∧ y = { x with txen := true }
  | .tx => priv = true ∧ x.txen = true ∧ x.pktLen ≠ 0 ∧ x.slot = none ∧
      y = { x with slot := some { dst := x.txDst, len := x.pktLen, bytes := x.packet } }

/-- All that a command can do: fail with a code and nothing else, fail for want of privilege, or be done. -/
theorem effect_cases (p : Params) (priv : Bool) (i : Instr) (x : Ctx) :
    (∃ cc, cc ≠ .ok ∧ cc ≠ .noPriv ∧ effect p priv i x = x.raise cc) ∨
    (priv = false ∧ (i = .txopen ∨ i = .tx) ∧ effect p priv i x = x.raiseNoPriv) ∨
    ∃ y, effect p priv i x = y.complete .ok ∧ Done p priv i x y := by
  have fail : ∀ cc, cc ≠ .ok → cc ≠ .noPriv → ∃ c, c ≠ .ok ∧ c ≠ .noPriv ∧ x.raise cc = x.raise c :=
    fun cc h h' => ⟨cc, h, h', rfl⟩
  have emit : ∀ b : List Byte, (∃ cc, cc ≠ .ok ∧ cc ≠ .noPriv ∧ x.emit p b = x.raise cc) ∨
      (x.argOff.toNat + b.length ≤ p.bufCap ∧ x.emit p b = (x.memWrite x.argOff.toNat b).complete .ok) := by
    intro b
    rcases Nat.lt_or_ge p.bufCap (x.argOff.toNat + b.length) with h | h
    · exact .inl ⟨.range, by decide, by decide, Ctx.emit_of_not_fits h⟩
    · exact .inr ⟨h, Ctx.emit_of_fits h⟩
  cases i with
  | nop => exact .inr (.inr ⟨x, rfl, rfl⟩)
  | encIp =>
    rcases emit (encodeIp x.hIp) with h | ⟨h, h'⟩
    · exact .inl h
    · exact .inr (.inr ⟨_, h', h, rfl⟩)
  | encTcp =>
    rcases emit (encodeTcp x.hTcp) with h | ⟨h, h'⟩
    · exact .inl h
    · exact .inr (.inr ⟨_, h', h, rfl⟩)
  | psh =>
    rcases emit (pseudo x.phSrc x.phDst x.phProto x.phLen) with h | ⟨h, h'⟩
    · exact .inl h
    · exact .inr (.inr ⟨_, h', h, rfl⟩)
  | decIp =>
    simp only [effect, Ctx.decIp, Ctx.ite_outside]
    split
    · exact .inl (fail _ (by decide) (by decide))
    · split
      · exact .inl (fail _ (by decide) (by decide))
      · exact .inr (.inr ⟨_, rfl, by omega, by omega, rfl⟩)
  | decTcp =>
    simp only [effect, Ctx.decTcp, Ctx.ite_outside]
    split
    · exact .inl (fail _ (by decide) (by decide))
    · split
      · exact .inl (fail _ (by decide) (by decide))
      · exact .inr (.inr ⟨_, rfl, by omega, by omega, rfl⟩)
  | csum =>
    simp only [effect, Ctx.csum, Ctx.ite_outside]
    split
    · exact .inl (fail _ (by decide) (by decide))
    · exact .inr (.inr ⟨_, rfl, by omega, rfl⟩)
  | finit => exact .inr (.inr ⟨x.loadFactory p, rfl, rfl⟩)
  | gen =>
    simp only [effect, Ctx.gen, Ctx.ite_outside]
    split
    · exact .inl (fail _ (by decide) (by decide))
    · rename_i hv
      split
      · exact .inl (fail _ (by decide) (by decide))
      · split
        · exact .inl (fail _ (by decide) (by decide))
        · rename_i hl
          have hl' : ¬ 65495 < x.argLen.toNat := hl
          exact .inr (.inr ⟨_, rfl, by simpa using hv, by omega, by omega, rfl⟩)
  | icls =>
    simp only [effect, Ctx.icls, Ctx.ite_outside]
    split
    · exact .inl (fail _ (by decide) (by decide))
    · split
      · exact .inl (fail _ (by decide) (by decide))
      · exact .inr (.inr ⟨_, rfl, by omega, _, ‹_›, rfl⟩)
  | txopen =>
    simp only [effect, Ctx.txopen]
    split
    · exact .inr (.inl ⟨‹_›, by simp, rfl⟩)
    · rename_i hp
      exact .inr (.inr ⟨_, rfl, by cases priv <;> simp_all, rfl⟩)
  | tx =>
    simp only [effect, Ctx.tx]
    split
    · exact .inr (.inl ⟨‹_›, by simp, rfl⟩)
    · split
      · exact .inl (fail _ (by decide) (by decide))
      · split
        · exact .inl (fail _ (by decide) (by decide))
        · split
          · exact .inl (fail _ (by decide) (by decide))
          · exact .inr (.inr ⟨_, rfl, by simp_all, by simp_all, ‹_›, by simp_all, rfl⟩)

end Sys2Proof.Machine
end

