-- ==== Sys2Proof/Laws/PerInstr.lean ====
section
/-! SUPPORT. Statements about every instruction as syntax, one lemma per constructor. -/

namespace Sys2Proof.Laws.EncodesWell

/-- The instruction is well formed and so is its command word (R70, R71). -/
def Statement (i : Instr) : Prop := i.wellFormed = true ∧ wordWellFormed (encode i) = true

theorem nop : Statement .nop := ⟨rfl, rfl⟩
theorem encIp : Statement .encIp := ⟨rfl, rfl⟩
theorem decIp : Statement .decIp := ⟨rfl, rfl⟩
theorem encTcp : Statement .encTcp := ⟨rfl, rfl⟩
theorem decTcp : Statement .decTcp := ⟨rfl, rfl⟩
theorem csum : Statement .csum := ⟨rfl, rfl⟩
theorem psh : Statement .psh := ⟨rfl, rfl⟩
theorem finit : Statement .finit := ⟨rfl, rfl⟩
theorem gen : Statement .gen := ⟨rfl, rfl⟩
theorem icls : Statement .icls := ⟨rfl, rfl⟩
theorem txopen : Statement .txopen := ⟨rfl, rfl⟩
theorem tx : Statement .tx := ⟨rfl, rfl⟩

end Sys2Proof.Laws.EncodesWell
end

