-- ==== Sys2Proof/Laws/Reset.lean ====
section
/-! SUPPORT. The contexts after a reset, said once. -/

namespace Sys2Proof.Machine

@[simp] theorem length_resetCtxs (e c n : Nat) : (resetCtxs e c n).length = n := by
  induction n generalizing c with
  | zero => rfl
  | succ n ih => simp [resetCtxs, ih]

/-- The context at index `i` after a reset. -/
theorem getElem?_resetCtxs (e c n i : Nat) :
    (resetCtxs e c n)[i]? = if i < n then some (Ctx.reset e (c + i)) else none := by
  induction n generalizing c i with
  | zero => simp [resetCtxs]
  | succ n ih =>
    cases i with
    | zero => simp [resetCtxs]
    | succ i =>
      simp only [resetCtxs, List.getElem?_cons_succ, ih, Nat.add_lt_add_iff_right]
      rw [show c + 1 + i = c + (i + 1) by omega]

/-- Every context after a reset is a reset context. -/
theorem eq_reset_of_mem {e c n : Nat} {x : Ctx} (h : x ∈ resetCtxs e c n) : ∃ d, x = Ctx.reset e d := by
  obtain ⟨i, hi⟩ := List.mem_iff_getElem?.mp h
  rw [getElem?_resetCtxs] at hi
  split at hi
  · exact ⟨_, (Option.some.inj hi).symm⟩
  · cases hi

end Sys2Proof.Machine
end

