-- ==== Sys2Proof/Laws/Safety.lean ====
section
/-! SUPPORT. The small lemmas of quiescence (R210): what counts as an access left, and when no slot is valid. -/

namespace Sys2Proof.Machine

@[simp] theorem accessLeft_nil : accessLeft [] = false := rfl
@[simp] theorem accessLeft_host (c : Nat) (a : Access) (l : List Input) : accessLeft (.host c a :: l) = true := rfl
@[simp] theorem accessLeft_arb (c : Nat) (l : List Input) : accessLeft (.arb c :: l) = accessLeft l := rfl
@[simp] theorem accessLeft_reset (p : Bool) (l : List Input) : accessLeft (.reset p :: l) = false := rfl

/-- No context is pending exactly when no slot is valid. -/
theorem State.pending_eq_nil {s : State} : s.pending = [] ↔ ∀ x ∈ s.ctxs, x.slot = none := by
  rw [List.eq_nil_iff_forall_not_mem]
  constructor
  · intro h x hx
    obtain ⟨c, hc⟩ := List.mem_iff_getElem?.mp hx
    by_contra hn
    exact h c (State.mem_pending.mpr ⟨x, hc, Option.isSome_iff_ne_none.mpr hn⟩)
  · rintro h c hc
    obtain ⟨x, hx, hs⟩ := State.mem_pending.mp hc
    simp [h x (List.mem_of_getElem? hx)] at hs

theorem State.quiescent_eq_true {s : State} :
    s.quiescent = true ↔ accessLeft s.inputs = false ∧ ∀ x ∈ s.ctxs, x.slot = none := by
  rw [← State.pending_eq_nil]
  unfold State.quiescent
  simp

end Sys2Proof.Machine
end

