-- ==== Sys2Proof/Machine/Script.lean ====
section
/-! DEFINITION. The script syntax of spec R76 and the pseudo-operations of R77, as the inputs each line stands for. It is notation for
`State.inputs` and adds no behaviour. -/

namespace Sys2Proof.Machine

/-- `WR c, REG, v` -/
def scriptWr (c : Nat) (r : Reg) (v : Word) : Input := .host c (.write 32 (regOffset r) v)

/-- `RD c, REG` -/
def scriptRd (c : Nat) (r : Reg) : Input := .host c (.read 32 (regOffset r))

/-- `WB c, o, b0 b1 ...`: one byte write each, in order. -/
def scriptWb (c o : Nat) : List Byte → List Input
  | [] => []
  | b :: bs => .host c (.write 8 (bufBase + o) (b.setWidth 32)) :: scriptWb c (o + 1) bs

/-- `RB c, o, n` -/
def scriptRb (c o n : Nat) : List Input := (List.range n).map fun i => .host c (.read 8 (bufBase + o + i))

/-- `RP c, o, n` -/
def scriptRp (c o n : Nat) : List Input := (List.range n).map fun i => .host c (.read 8 (pktBase + o + i))

/-- `CMD c, MNEMONIC` -/
def scriptCmd (c : Nat) (i : Instr) : Input := scriptWr c .cmd (encode i)

/-- `ARB c` -/
def scriptArb (c : Nat) : Input := .arb c

/-- `RESET`, after which `PRIV` is `priv` -/
def scriptReset (priv : Bool) : Input := .reset priv

/-- `BUFARG c, o, n` -/
def scriptBufArg (c : Nat) (o n : Word) : List Input := [scriptWr c .argOff o, scriptWr c .argLen n]

/-- `SETFLAGS c, m` -/
def scriptSetFlags (c : Nat) (m : Word) : List Input := [scriptWr c (.tcp .f .flags) m]

/-- `SETSEQ c, v` -/
def scriptSetSeq (c : Nat) (v : Word) : List Input := [scriptWr c (.tcp .f .seq) v]

/-- `FACTORY c, src, sport, dst, dport` -/
def scriptFactory (c : Nat) (src sport dst dport : Word) : List Input :=
  [scriptWr c .fiSrc src, scriptWr c .fiSport sport, scriptWr c .fiDst dst, scriptWr c .fiDport dport, scriptCmd c .finit]

/-- `SEND c, dst` -/
def scriptSend (c : Nat) (dst : Word) : List Input := [scriptWr c .txDst dst, scriptCmd c .tx]

/-- `COPYPKT c, po, o, n`: read each byte of `PKT` and write it to `BUF`. The host writes what it reads; `x` is the context at that time,
whose `PKT` these accesses leave as it is. -/
def scriptCopyPkt (c : Nat) (x : Ctx) (po o n : Nat) : List Input :=
  (List.range n).flatMap fun i =>
    [.host c (.read 8 (pktBase + (po + i))), .host c (.write 8 (bufBase + (o + i)) ((x.pktByte (po + i)).setWidth 32))]

/-- The flag masks of R65. -/
inductive TcpFlag where
  | fin | syn | rst | psh | ack | urg | ece | cwr
  deriving DecidableEq, Repr

/-- Bit 0 is FIN, bit 7 is CWR (R65). -/
def tcpFlagMask : TcpFlag → Byte
  | .fin => 0x01
  | .syn => 0x02
  | .rst => 0x04
  | .psh => 0x08
  | .ack => 0x10
  | .urg => 0x20
  | .ece => 0x40
  | .cwr => 0x80

end Sys2Proof.Machine
end

