-- ==== Sys2Proof/Tests/Slice0.lean ====
section
/-! SUPPORT. Small tests. Expected results are the vectors of spec/95_test_vectors.md, named by their id, or the rule in the comment. Then
the witnesses: states and operands that meet the hypotheses of each obligation. -/

namespace Sys2Proof.Tests

open Sys2Proof.Machine Sys2Proof.Spec

/-! ### Words -/

/-- Each check of `wordWellFormed` refuses a word that is ill formed in that one way (R71; vectors W1, W3, W4). -/
theorem test_wellFormed_refuses :
    (zeroFieldOk 0x00000105#32 = false ∧ opcodeOk 0x00000105#32 = true) ∧
    (zeroFieldOk 0x0000000C#32 = true ∧ opcodeOk 0x0000000C#32 = false) ∧
    wordWellFormed 0x80000000#32 = false ∧ wordWellFormed 0x000000FF#32 = false ∧ wordWellFormed 0x0000000B#32 = true := by
  decide

/-- The twelve words, bit by bit from R70 (bits 31:8 zero) and the opcode column of R73. -/
theorem test_decode_words :
    decode 0b00000000000000000000000000000000#32 = .ok .nop ∧
    decode 0b00000000000000000000000000000001#32 = .ok .encIp ∧
    decode 0b00000000000000000000000000000010#32 = .ok .decIp ∧
    decode 0b00000000000000000000000000000011#32 = .ok .encTcp ∧
    decode 0b00000000000000000000000000000100#32 = .ok .decTcp ∧
    decode 0b00000000000000000000000000000101#32 = .ok .csum ∧
    decode 0b00000000000000000000000000000110#32 = .ok .psh ∧
    decode 0b00000000000000000000000000000111#32 = .ok .finit ∧
    decode 0b00000000000000000000000000001000#32 = .ok .gen ∧
    decode 0b00000000000000000000000000001001#32 = .ok .icls ∧
    decode 0b00000000000000000000000000001010#32 = .ok .txopen ∧
    decode 0b00000000000000000000000000001011#32 = .ok .tx := ⟨rfl, rfl, rfl, rfl, rfl, rfl, rfl, rfl, rfl, rfl, rfl, rfl⟩

/-- Words that name no command (R74; vectors W1 to W4). -/
theorem test_decode_refuses :
    decode 0x0000000C#32 = .error .reservedOpcode ∧ decode 0x000000FF#32 = .error .reservedOpcode ∧
    decode 0x00000105#32 = .error .upperBitsSet ∧ decode 0x80000000#32 = .error .upperBitsSet := ⟨rfl, rfl, rfl, rfl⟩

theorem test_decodeTableWord :
    decodeTableWord 32 0x5 = some .csum ∧ decodeTableWord 8 0xB = some .tx ∧ decodeTableWord 32 0x10000000 = none ∧
    decodeTableWord 32 0xC = none := by decide

/-! ### States -/

def fresh : Ctx := Ctx.reset 0 0

/-- The parameters of the test vectors (spec/95_test_vectors.md section 1): the values of R4's table and every `DEF_*` 0 that it leaves OPEN. -/
def std : Params :=
  { bufRoom := 65492, protoIcmp := 1, protoTcp := 6, ipVersion := 4, defTtl := 255, defTos := 0, defId := 0, defFrag := 0
    defWindow := 0 }

/-- An engine with these contexts and the parameters of the test vectors. -/
def engine (priv : Bool) (xs : List Ctx) (inputs : List Input := []) : State :=
  { ctxs := xs, wire := [], priv := priv, par := std, inputs := inputs, cur := 0, resp := none, epoch := 0, picks := 0 }

def one (x : Ctx) : State := engine true [x]

def outState : Out → State
  | .next s => s
  | _ => engine false []

/-- Context 0 after a step. -/
def ctx0 (o : Out) : Ctx := (outState o).ctxs.getD 0 fresh

/-- Context 0 after a command on context 0 of an engine that holds the privilege. -/
def did (i : Instr) (x : Ctx) : Ctx := ctx0 (exec i (one x))

def bytes (x : Ctx) (a n : Nat) : List Byte := (List.range n).map fun i => x.bufByte (a + i)

/-- The context with these bytes from `a` on in `BUF`, `ARG_OFF` = `a` and `ARG_LEN` their number. -/
def holding (a : Nat) (s : List Byte) : Ctx :=
  { fresh with buf := Memory.ofBytes a s, argOff := BitVec.ofNat 32 a, argLen := BitVec.ofNat 32 s.length }

def hostA : Word := 0xC0A8010A
def hostB : Word := 0xC0A80114

/-! ### One command each -/

/-- R150's example. -/
theorem test_nop : (did .nop { fresh with cc := .malformed, fvalid := true }).status = 0x10 := by decide

def x2 : IpHdr :=
  { ver := 4, ihl := 5, tos := 0xB8, len := 0x1234, id := 0xABCD, frag := 0x4000, ttl := 64, proto := 1, csum := 0xBEEF
    src := 0x0A000001, dst := 0xAC10FE03 }

def x2Bytes : List Byte :=
  [0x45, 0xB8, 0x12, 0x34, 0xAB, 0xCD, 0x40, 0x00, 0x40, 0x01, 0xBE, 0xEF, 0x0A, 0x00, 0x00, 0x01, 0xAC, 0x10, 0xFE, 0x03]

/-- Vector X2: an odd offset, and the bytes beside the output stay unwritten. -/
theorem test_encIp :
    let y := did .encIp { fresh with hIp := x2, argOff := 7 }
    y.cc = .ok ∧ bytes y 7 20 = x2Bytes ∧ y.buf.read 6 = none ∧ y.buf.read 27 = none := by decide

/-- Vector X14. -/
theorem test_encIp_range : (did .encIp { fresh with argOff := 65517 }).cc = .range := by decide

/-- With the smallest `BUF_CAP` of R4, 44: `BUF[24..44)` is the last place for a header (R46) and offset 0x1002B the last of `BUF` (R41). -/
theorem test_small_buffer :
    let s := fun x inputs => { engine true [x] inputs with par := { std with bufRoom := 0 } }
    (ctx0 (exec .encIp (s { fresh with argOff := 24 } []))).cc = .ok ∧
    (ctx0 (exec .encIp (s { fresh with argOff := 25 } []))).cc = .range ∧
    (outState (step (s fresh [.host 0 (.write 8 0x1002B 1)]))).resp = some .done ∧
    (outState (step (s fresh [.host 0 (.write 8 0x1002C 1)]))).resp = some .error := by decide

/-- Vector X3. -/
theorem test_decIp : (did .decIp (holding 0 x2Bytes)).hIp = x2 := by decide

/-- Vectors X10, X15, X16 and X17. -/
theorem test_decIp_fails :
    (did .decIp { fresh with argLen := 19 }).cc = .malformed ∧
    (did .decIp { fresh with argOff := 65536, argLen := 5 }).cc = .range ∧
    (did .decIp { fresh with argOff := 0xFFFFFFFF, argLen := 2 }).cc = .range ∧
    (did .decIp { fresh with argOff := 65536 }).cc = .malformed := by decide

def x4 : TcpHdr :=
  { sport := 0x1F90, dport := 0xC350, seq := 0xDEADBEEF, ack := 0x01020304, doff := 5, flags := 0xFF, win := 0xFFFF
    csum := 0x1234, urg := 0x5678 }

/-- The bytes of vector X4, with byte 12 as given. -/
def x4Bytes (b12 : Byte) : List Byte :=
  [0x1F, 0x90, 0xC3, 0x50, 0xDE, 0xAD, 0xBE, 0xEF, 0x01, 0x02, 0x03, 0x04, b12, 0xFF, 0xFF, 0xFF, 0x12, 0x34, 0x56, 0x78]

/-- Vector X4. -/
theorem test_encTcp : bytes (did .encTcp { fresh with hTcp := x4 }) 0 20 = x4Bytes 0x50 := by decide

/-- Vector X7: the reserved nibble is lost. -/
theorem test_decTcp : (did .decTcp (holding 0 (x4Bytes 0x5A))).hTcp = x4 := by decide

/-- Vectors K1, K3, K6, K8 and K10. -/
theorem test_csum :
    (did .csum (holding 0 [])).resCsum = 0xFFFF ∧ (did .csum (holding 0 [0xFF])).resCsum = 0x00FF ∧
    (did .csum (holding 0 [0xFF, 0xFF])).resCsum = 0x0000 ∧
    (did .csum (holding 3 [0x00, 0x01, 0xF2, 0x03, 0xF4, 0xF5, 0xF6, 0xF7])).resCsum = 0x220D ∧
    (did .csum (holding 0 [0xFF, 0xFF, 0xFF, 0xFF, 0x00, 0x01])).resCsum = 0xFFFE := by decide +kernel

/-- Vector K20. -/
theorem test_csum_range :
    let y := did .csum { fresh with argOff := 65530, argLen := 7, resCsum := 0x220D }
    y.cc = .range ∧ y.resCsum = 0x220D := by decide

/-- Vector H2. -/
theorem test_psh :
    bytes (did .psh { fresh with phSrc := hostA, phDst := hostB, phProto := 6, phLen := 23, argOff := 5 }) 5 12 =
      [0xC0, 0xA8, 0x01, 0x0A, 0xC0, 0xA8, 0x01, 0x14, 0x00, 0x06, 0x00, 0x17] := by decide

/-- Vector H5. -/
theorem test_psh_range :
    (did .psh { fresh with argOff := 65525 }).cc = .range ∧ (did .psh { fresh with argOff := 65524 }).cc = .ok := by decide

def factory : Ctx := { fresh with fiSrc := hostA, fiSport := 50000, fiDst := hostB, fiDport := 80 }

/-- Vector F1. -/
theorem test_finit :
    let y := did .finit factory
    y.status = 0x10 ∧ y.hIp = IpHdr.zero ∧
    y.fIp = { IpHdr.zero with ver := 4, ihl := 5, ttl := 255, proto := 6, src := hostA, dst := hostB } ∧
    y.fTcp = { TcpHdr.zero with sport := 50000, dport := 80, doff := 5 } := by decide

/-- The context before the `GEN` of vector GN1, with a stale checksum in `F_TCP_CSUM` (GN6). -/
def gn1 : Ctx :=
  { fresh with
    fvalid := true
    fIp := { IpHdr.zero with ver := 4, ihl := 5, ttl := 255, proto := 6, src := hostA, dst := hostB }
    fTcp := { TcpHdr.zero with sport := 50000, dport := 80, seq := 1000, doff := 5, flags := 2, win := 1024, csum := 0xFFFF } }

def gn1Bytes : List Byte :=
  [0x45, 0, 0, 0, 0, 0, 0, 0, 0xFF, 0x06, 0, 0, 0xC0, 0xA8, 0x01, 0x0A, 0xC0, 0xA8, 0x01, 0x14,
   0xC3, 0x50, 0x00, 0x50, 0, 0, 0x03, 0xE8, 0, 0, 0, 0, 0x50, 0x02, 0x04, 0x00, 0x60, 0xEB, 0, 0]

/-- Vectors GN1 and GN6. -/
theorem test_gen :
    let y := did .gen gn1
    y.cc = .ok ∧ y.fTcp.csum = 0x60EB ∧ y.pktLen = 40 ∧ y.packet = gn1Bytes := by decide +kernel

/-- Vectors F3, GN9 and GN5. -/
theorem test_gen_more :
    (did .gen { fresh with argOff := 70000 }).cc = .notInit ∧ (did .gen { gn1 with argLen := 65496 }).cc = .range ∧
    (did .gen { gn1 with buf := Memory.ofBytes 200 [0x61, 0x62, 0x63], argOff := 200, argLen := 3 }).fTcp.csum = 0x9C85 := by
  decide +kernel

/-- The 20 bytes `IPH(p)` of L2.4. -/
def iph (p : Byte) : List Byte :=
  [0x45, 0, 0, 0, 0, 0, 0, 0, 0x40, p, 0, 0, 0xC0, 0xA8, 0x01, 0x14, 0xC0, 0xA8, 0x01, 0x0A]

/-- Vectors I1, I7, I9, I11 and I12. -/
theorem test_icls :
    (did .icls (holding 0 (iph 1 ++ [3, 1]))).resCls = 2 ∧ (did .icls (holding 0 (iph 1 ++ [3, 0]))).resCls = 1 ∧
    (did .icls (holding 0 (iph 1 ++ [8, 3]))).resCls = 1 ∧
    (did .icls { holding 0 (iph 17 ++ [3, 3]) with resCls := 2 }).resCls = 0 ∧
    (did .icls { holding 0 (iph 6) with resCls := 2 }).resCls = 0 := by decide

/-- Vectors I13 and I15. -/
theorem test_icls_fails :
    (did .icls (holding 0 (iph 1 ++ [3]))).cc = .malformed ∧
    (did .icls { fresh with argOff := 65530, argLen := 22 }).cc = .range := by decide

/-- Vectors T2 and T3. -/
theorem test_txopen :
    (did .txopen fresh).status = 0x20 ∧ (ctx0 (exec .txopen (engine false [fresh]))).status = 0x84 := by decide

/-- The context of vector T6, before and after the `TX`. -/
def t6 : Ctx := { did .gen gn1 with txen := true, txDst := hostB }

def t6Slot : Slot := { dst := hostB, len := 40, bytes := gn1Bytes }

/-- Vectors T6 and T7. -/
theorem test_tx :
    (did .tx t6).slot = some t6Slot ∧ (did .tx t6).status = 0x70 ∧ (did .tx (did .tx t6)).status = 0x76 := by decide +kernel

/-- Vectors T4, T5 and T11. -/
theorem test_tx_fails :
    (did .tx fresh).status = 0x05 ∧ (did .tx { fresh with txen := true }).status = 0x28 ∧
    (ctx0 (exec .tx (engine false [{ fresh with fvalid := true }]))).status = 0x94 := by decide

/-! ### One step each -/

/-- After reset the word of a row runs as the next step (R71); the vector T1. -/
theorem test_withFetchWord :
    (ctx0 (step (State.reset.withFetchWord 32 0x5))).resCsum = 0xFFFF ∧
    (ctx0 (step (State.reset.withFetchWord 32 0x5))).cmd = 5 := ⟨rfl, rfl⟩

/-- Vectors W1 and W3. -/
theorem test_illegal :
    let y := ctx0 (step (engine true [fresh] [.host 0 (.write 32 0x130 0x0000000C)]))
    let z := ctx0 (step (engine true [{ fresh with txen := true }] [.host 0 (.write 32 0x130 0x00000105)]))
    y.status = 0x02 ∧ y.cmd = 0x0000000C ∧ z.status = 0x22 ∧ z.resCsum = 0 := by decide

/-- Vectors T9 and T8's slot: the record carries the slot's bytes, and the code stays. -/
theorem test_arbiter :
    let s := outState (step (engine true [{ fresh with slot := some t6Slot, cc := .txBusy }] [.arb 0]))
    s.wire = [{ ctx := 0, dst := hostB, dport := 0, bytes := gn1Bytes }] ∧ (ctx0 (.next s)).status = 0x06 := by decide

/-- Vectors A1 and A2. -/
theorem test_truncation :
    (ctx0 (step (engine true [fresh] [scriptWr 0 (.ip .h .ver) 0x1F4]))).getReg (.ip .h .ver) = 4 ∧
    (ctx0 (step (engine true [fresh] [scriptWr 0 (.tcp .h .sport) 0x12345]))).getReg (.tcp .h .sport) = 0x2345 := by decide

/-- Vectors A4 to A7. -/
theorem test_access_errors :
    let r := fun a => (outState (step (engine true [fresh] [.host 0 a]))).resp
    r (.write 32 0x134 0xFF) = some .error ∧ r (.read 32 0x02C) = some .error ∧ r (.read 32 0x144) = some .error ∧
    r (.write 8 0x20000 1) = some .error ∧ r (.read 8 0x000) = some .error ∧ r (.read 32 0x10000) = some .error ∧
    r (.read 32 0x0AA) = some .error ∧ r (.write 8 0x1FFFF 1) = some .done := by decide

/-- R14 to R17: a register named by its offset. `PH_SRC` stands at 0x108, `PH_DST` at 0x10C, `F_TCP_CSUM` at 0x0CC. -/
theorem test_offsets :
    let x := { fresh with phSrc := 0x11, phDst := 0x22, fTcp := { TcpHdr.zero with csum := 0x33 } }
    let r := fun a => (outState (step (engine true [x] [.host 0 (.read 32 a)]))).resp
    r 0x108 = some (.value 0x11) ∧ r 0x10C = some (.value 0x22) ∧ r 0x0CC = some (.value 0x33) := by decide

/-- R210: arbiter inputs, and what stands behind a reset, are no access of this run; a valid slot is no quiescence. -/
theorem test_quiescent :
    (engine true [fresh] [.arb 0]).quiescent = true ∧
    (engine true [fresh] [.arb 0, .reset true, .host 0 (.read 32 0)]).quiescent = true ∧
    (engine true [fresh] [.arb 0, .host 0 (.read 32 0), .reset true]).quiescent = false ∧
    (engine true [{ fresh with slot := some t6Slot }]).quiescent = false := by decide

/-- Vector A8. -/
theorem test_contexts :
    ((outState (step (engine true [fresh, fresh] [scriptWr 0 (.ip .h .ttl) 9]))).ctxs.map fun x => x.hIp.ttl) = [9, 0] := by
  decide

/-- Vector A10. -/
theorem test_reset :
    let s := outState (step { engine true [{ fresh with slot := some t6Slot, pktLen := 40 }] [.reset false] with
      wire := [{ ctx := 0, dst := hostA, dport := 0, bytes := [1] }] })
    s.wire.length = 1 ∧ s.priv = false ∧ (ctx0 (.next s)).status = 0 ∧ (ctx0 (.next s)).pktLen = 0 := by decide

/-! ### Witnesses: the hypotheses of the obligations can be met, each clause at a boundary of its range -/

/-- The engine of one context, about to take one access at its host port. -/
def asked (x : Ctx) (a : Access) : State := engine true [x] [.host 0 a]

/-- The operands `ARG_OFF` and `ARG_LEN`. -/
def sized (off len : Word) : Ctx := { fresh with argOff := off, argLen := len }

/-- `BUF_CAP` and `PROTO_ICMP` of the witnesses, where the bounds below are written out. -/
theorem one_par (x : Ctx) : (one x).par.bufCap = 65536 ∧ (one x).par.protoIcmp.toNat = 1 := by
  show std.bufCap = 65536 ∧ std.protoIcmp.toNat = 1
  decide

/-- The current context of an engine of one context is that context. -/
theorem one_cur (x : Ctx) : (one x).ctxs[(one x).cur]? = some x := rfl

theorem witness_DecodeAndEncodeAgree : Instr.wellFormed .tx = true ∧ decode 0x0000000B#32 = .ok .tx := ⟨rfl, rfl⟩

theorem witness_StepRunsTheWordWrittenToCmd :
    let s := fun w => asked fresh (.write 32 0x130 w)
    (∀ w, (s w).inputs = .host 0 (.write 32 0x130 w) :: [] ∧ (s w).ctxs[0]? = some fresh) ∧
    decode 0x0000000B#32 = .ok .tx ∧ (∀ i, decode 0x0000000C#32 ≠ .ok i) ∧ ∀ i, decode 0x00000100#32 ≠ .ok i := by
  refine ⟨fun w => ⟨rfl, rfl⟩, rfl, ?_, ?_⟩ <;> intro i <;> cases i <;> decide

theorem witness_NopOnlyClearsTheCode : (one fresh).ctxs[(one fresh).cur]? = some fresh := rfl

theorem witness_EncIpWritesTheHeader :
    let x := sized 65516 0
    let z := sized 65517 0
    (one x).ctxs[(one x).cur]? = some x ∧ x.argOff.toNat + 20 ≤ 65536 ∧
    (one z).ctxs[(one z).cur]? = some z ∧ 65536 < z.argOff.toNat + 20 := ⟨rfl, by decide, rfl, by decide⟩

theorem witness_DecIpLoadsTheHeader :
    let x := sized 65516 20
    let y := sized 65516 21
    let z := sized 65517 19
    (one x).ctxs[(one x).cur]? = some x ∧ x.argOff.toNat + x.argLen.toNat ≤ 65536 ∧ 20 ≤ x.argLen.toNat ∧
    (one y).ctxs[(one y).cur]? = some y ∧ 65536 < y.argOff.toNat + y.argLen.toNat ∧
    (one z).ctxs[(one z).cur]? = some z ∧ z.argOff.toNat + z.argLen.toNat ≤ 65536 ∧ z.argLen.toNat < 20 :=
  ⟨rfl, by decide, by decide, rfl, by decide, rfl, by decide, by decide⟩

theorem witness_EncTcpWritesTheHeader :
    let x := sized 65516 0
    let z := sized 65517 0
    (one x).ctxs[(one x).cur]? = some x ∧ x.argOff.toNat + 20 ≤ 65536 ∧
    (one z).ctxs[(one z).cur]? = some z ∧ 65536 < z.argOff.toNat + 20 := ⟨rfl, by decide, rfl, by decide⟩

theorem witness_DecTcpLoadsTheHeader :
    let x := sized 65516 20
    let y := sized 0xFFFFFFFF 2
    let z := sized 65536 0
    (one x).ctxs[(one x).cur]? = some x ∧ x.argOff.toNat + x.argLen.toNat ≤ 65536 ∧ 20 ≤ x.argLen.toNat ∧
    (one y).ctxs[(one y).cur]? = some y ∧ 65536 < y.argOff.toNat + y.argLen.toNat ∧
    (one z).ctxs[(one z).cur]? = some z ∧ z.argOff.toNat + z.argLen.toNat ≤ 65536 ∧ z.argLen.toNat < 20 :=
  ⟨rfl, by decide, by decide, rfl, by decide, rfl, by decide, by decide⟩

theorem witness_CsumSumsTheBuffer :
    let x := sized 65535 1
    let z := sized 65535 2
    (one x).ctxs[(one x).cur]? = some x ∧ x.argOff.toNat + x.argLen.toNat ≤ 65536 ∧
    (one z).ctxs[(one z).cur]? = some z ∧ 65536 < z.argOff.toNat + z.argLen.toNat := ⟨rfl, by decide, rfl, by decide⟩

theorem witness_PshWritesThePseudoHeader :
    let x := sized 65524 0
    let z := sized 65525 0
    (one x).ctxs[(one x).cur]? = some x ∧ x.argOff.toNat + 12 ≤ 65536 ∧
    (one z).ctxs[(one z).cur]? = some z ∧ 65536 < z.argOff.toNat + 12 := ⟨rfl, by decide, rfl, by decide⟩

theorem witness_FinitLoadsTheFactory : (one factory).ctxs[(one factory).cur]? = some factory := rfl

theorem witness_GenBuildsThePacket :
    let x := { gn1 with argOff := 41, argLen := 65495 }
    let y := { gn1 with argOff := 42, argLen := 65495 }
    let z := { gn1 with argOff := 0, argLen := 65496 }
    ((one x).ctxs[(one x).cur]? = some x ∧ x.fvalid = true ∧ x.argOff.toNat + x.argLen.toNat ≤ 65536 ∧
      x.argLen.toNat ≤ 65495) ∧
    ((one fresh).ctxs[(one fresh).cur]? = some fresh ∧ fresh.fvalid = false) ∧
    ((one y).ctxs[(one y).cur]? = some y ∧ y.fvalid = true ∧ 65536 < y.argOff.toNat + y.argLen.toNat) ∧
    ((one z).ctxs[(one z).cur]? = some z ∧ z.fvalid = true ∧ 65495 < z.argLen.toNat) :=
  ⟨⟨rfl, rfl, by decide, by decide⟩, ⟨rfl, rfl⟩, ⟨rfl, rfl, by decide⟩, rfl, rfl, by decide⟩

theorem witness_IclsClassifiesTheDatagram :
    let na := holding 65516 (iph 6)
    let short := holding 65515 (iph 1 ++ [3])
    let err := holding 65514 (iph 1 ++ [3, 0])
    let filt := holding 65514 (iph 1 ++ [3, 13])
    let out := sized 65515 22
    let tiny := sized 65517 19
    let d := fun (x : Ctx) i => (x.bufByte (x.argOff.toNat + i)).toNat
    (∀ x : Ctx, (one x).ctxs[(one x).cur]? = some x) ∧
    65536 < out.argOff.toNat + out.argLen.toNat ∧
    (tiny.argOff.toNat + tiny.argLen.toNat ≤ 65536 ∧ tiny.argLen.toNat < 20) ∧
    (short.argOff.toNat + short.argLen.toNat ≤ 65536 ∧ d short 9 = 1 ∧ short.argLen.toNat < 22) ∧
    (na.argOff.toNat + na.argLen.toNat ≤ 65536 ∧ 20 ≤ na.argLen.toNat ∧ d na 9 ≠ 1) ∧
    (err.argOff.toNat + err.argLen.toNat ≤ 65536 ∧ 22 ≤ err.argLen.toNat ∧ d err 9 = 1 ∧
      d err 21 ∉ [1, 2, 3, 9, 10, 13]) ∧
    (filt.argOff.toNat + filt.argLen.toNat ≤ 65536 ∧ 22 ≤ filt.argLen.toNat ∧ d filt 9 = 1 ∧ d filt 20 = 3 ∧
      d filt 21 ∈ [1, 2, 3, 9, 10, 13]) := by
  refine ⟨fun x => rfl, ?_⟩
  decide

theorem witness_TxopenNeedsThePrivilege :
    (one fresh).ctxs[(one fresh).cur]? = some fresh ∧ (one fresh).priv = true ∧
    (engine false [fresh]).ctxs[(engine false [fresh]).cur]? = some fresh ∧ (engine false [fresh]).priv = false :=
  ⟨rfl, rfl, rfl, rfl⟩

/-- A context with an open path and a generated packet of 40 bytes, and one whose slot is full besides. -/
def ready : Ctx :=
  { fresh with fvalid := true, txen := true, txDst := hostB, pktLen := 40, pkt := Memory.ofBytes 0 gn1Bytes }

def full : Ctx := { ready with slot := some t6Slot }

theorem witness_TxCopiesThePacketIntoTheSlot :
    (∀ x : Ctx, (one x).ctxs[(one x).cur]? = some x ∧ (one x).priv = true) ∧
    (ready.txen = true ∧ ready.pktLen.toNat ≠ 0 ∧ ready.slot = none) ∧
    (engine false [ready]).ctxs[(engine false [ready]).cur]? = some ready ∧ (engine false [ready]).priv = false ∧
    fresh.txen = false ∧ ({ fresh with txen := true }.txen = true ∧ { fresh with txen := true }.pktLen.toNat = 0) ∧
    (full.txen = true ∧ full.pktLen.toNat ≠ 0 ∧ full.slot ≠ none) :=
  ⟨fun x => ⟨rfl, rfl⟩, ⟨rfl, by decide, rfl⟩, rfl, rfl, rfl, ⟨rfl, rfl⟩, rfl, by decide, by decide⟩

theorem witness_FailedCommandChangesNothingElse :
    let s := asked fresh (.write 32 0x130 0x0000000C)
    let r := engine false [fresh] [.host 0 (.write 32 0x130 0x0000000A)]
    (∃ t y, s.inputs = .host 0 (.write 32 0x130 0x0000000C) :: [] ∧ s.ctxs[0]? = some fresh ∧ step s = .next t ∧
      t.ctxs[0]? = some y ∧ y.cc = .illegal) ∧
    ∃ t y, r.inputs = .host 0 (.write 32 0x130 0x0000000A) :: [] ∧ r.ctxs[0]? = some fresh ∧ step r = .next t ∧
      t.ctxs[0]? = some y ∧ y.cc = .noPriv :=
  ⟨⟨_, _, rfl, rfl, rfl, rfl, rfl⟩, _, _, rfl, rfl, rfl, rfl, rfl⟩

theorem witness_TheFirstCheckGivesTheCode :
    let s := fun w => asked fresh (.write 32 0x130 w)
    (∀ w, (s w).inputs = .host 0 (.write 32 0x130 w) :: [] ∧ (s w).ctxs[0]? = some fresh) ∧
    decode 0x0000000B#32 = .ok .tx ∧ 12 ≤ (0x0000000C#32).toNat := ⟨fun w => ⟨rfl, rfl⟩, rfl, by decide⟩

theorem witness_RangeOutsideTheBuffer :
    let x := { gn1 with argOff := 41, argLen := 65495 }
    let z := { gn1 with argOff := 42, argLen := 65495 }
    (∀ y : Ctx, (one y).ctxs[(one y).cur]? = some y) ∧
    (bufferLength x .gen = some 65495 ∧ x.fvalid = true ∧ x.argOff.toNat + 65495 ≤ 65536) ∧
    (bufferLength z .gen = some 65495 ∧ z.fvalid = true ∧ 65536 < z.argOff.toNat + 65495) :=
  ⟨fun y => rfl, ⟨rfl, rfl, by decide⟩, rfl, rfl, by decide⟩

theorem witness_RegisterWriteIsTruncated :
    (∀ a, (asked fresh a).inputs = .host 0 a :: [] ∧ (asked fresh a).ctxs[0]? = some fresh) ∧
    (registerFile fresh)[0]? = some (0x000, 4, 0) ∧ (registerFile fresh)[50]? = some (0x128, 32, 0) ∧
    (registerFile fresh)[51]? = some (0x130, 32, 0) := ⟨fun _ => ⟨rfl, rfl⟩, rfl, rfl, rfl⟩

/-- The first and the last register, and one of `F`. -/
theorem witness_RegisterReadsAnswerTheStoredValue :
    (∀ a, (asked full a).inputs = .host 0 a :: [] ∧ (asked full a).ctxs[0]? = some full) ∧
    (0x000, 4, 0) ∈ registerFile full ∧ (0x0CC, 16, 0) ∈ registerFile full ∧ (0x140, 16, 40) ∈ registerFile full := by
  refine ⟨fun _ => ⟨rfl, rfl⟩, ?_⟩
  decide

/-- Both sides of the edges of the map of R41. -/
theorem witness_RefusedAccessChangesNothing :
    (∀ a, (asked fresh a).inputs = .host 0 a :: [] ∧ (asked fresh a).ctxs[0]? = some fresh) ∧
    std.bufCap = 65536 ∧
    (Allowed 65536 (.read 32 0x140) ∧ Allowed 65536 (.write 32 0x130 0) ∧ Allowed 65536 (.write 8 0x1FFFF 0) ∧
      Allowed 65536 (.read 8 0x2FFFE)) ∧
    ¬ Allowed 65536 (.read 32 0x144) ∧ ¬ Allowed 65536 (.write 32 0x134 0) ∧ ¬ Allowed 65536 (.write 8 0x20000 0) ∧
    ¬ Allowed 65536 (.read 8 0x2FFFF) := by
  refine ⟨fun a => ⟨rfl, rfl⟩, rfl, ?_⟩
  simp [Allowed, IsRegOffset]

theorem witness_ReadsHaveNoEffect :
    let s := engine true [fresh] [.host 0 (.read 32 0x134), .host 0 (.read 32 0x134)]
    s.inputs = .host 0 (.read 32 0x134) :: .host 0 (.read 32 0x134) :: [] ∧ s.ctxs[0]? = some fresh := ⟨rfl, rfl⟩

theorem witness_BufWindowIsByteMemory :
    (asked fresh (.write 8 (0x10000 + 65535) 0x1FF)).inputs = .host 0 (.write 8 (0x10000 + 65535) 0x1FF) :: [] ∧
    (asked fresh (.read 8 (0x10000 + 0))).inputs = .host 0 (.read 8 (0x10000 + 0)) :: [] ∧
    ∀ a, (asked fresh a).ctxs[0]? = some fresh := ⟨rfl, rfl, fun _ => rfl⟩

theorem witness_PktWindowReadsThePacket :
    let s := fun i => asked ready (.read 8 (0x20000 + i))
    (∀ i, (s i).inputs = .host 0 (.read 8 (0x20000 + i)) :: [] ∧ (s i).ctxs[0]? = some ready) ∧
    ready.pktLen.toNat ≤ 40 ∧ 39 < ready.pktLen.toNat := ⟨fun i => ⟨rfl, rfl⟩, by decide, by decide⟩

theorem witness_StatusReadsItsFields :
    let s := asked full (.read 32 0x134)
    s.ctxs[0]? = some full ∧ s.inputs = .host 0 (.read 32 0x134) :: [] := ⟨rfl, rfl⟩

theorem witness_CmdHoldsTheLastWord :
    let s := engine true [fresh] [.host 0 (.write 32 0x130 0xC), .host 0 (.read 32 0x130)]
    s.inputs = .host 0 (.write 32 0x130 0xC) :: .host 0 (.read 32 0x130) :: [] ∧ s.ctxs[0]? = some fresh := ⟨rfl, rfl⟩

/-- A reset with a packet pending: for `ResetClearsEveryRegister`, `WireSurvivesReset` and `BuffersAreUnspecifiedAfterReset`. -/
theorem witness_reset : (engine true [full] [.reset false]).inputs = .reset false :: [] := rfl

theorem witness_OnlyResetClearsTheStickyFlags :
    let s := engine true [{ ready with fatal := true }] [.host 0 (.write 32 0x130 0)]
    (∃ t, step s = .next t) ∧ (∀ p rest, s.inputs ≠ .reset p :: rest) ∧
    ∃ x, s.ctxs[0]? = some x ∧ x.fvalid = true ∧ x.txen = true ∧ x.fatal = true :=
  ⟨⟨_, rfl⟩, by simp [engine], _, rfl, rfl, rfl, rfl⟩

theorem witness_ContextsShareNothing :
    let s := engine true [fresh, ready] [.host 0 (.write 32 0x130 0)]
    let s' := engine true [fresh, full] [.host 0 (.write 32 0x130 0), .arb 1]
    s.inputs = .host 0 (.write 32 0x130 0) :: [] ∧ s'.inputs = .host 0 (.write 32 0x130 0) :: [.arb 1] ∧
    (∃ t, step s = .next t) ∧ s.ctxs[0]? = some fresh ∧ s'.ctxs[0]? = some fresh ∧ s.priv = s'.priv ∧ s.par = s'.par :=
  ⟨rfl, rfl, ⟨_, rfl⟩, rfl, rfl, rfl, rfl⟩

theorem witness_ContextsInterleaveFreely :
    (0 : Nat) ≠ 1 ∧ (engine true [fresh, ready]).ctxs[0]? = some fresh ∧ (engine true [fresh, ready]).ctxs[1]? = some ready :=
  ⟨by decide, rfl, rfl⟩

theorem witness_BanksAreSeparate :
    ∃ t y, (one fresh).ctxs[(one fresh).cur]? = some fresh ∧ exec .icls (one fresh) = .next t ∧
      t.ctxs[(one fresh).cur]? = some y := ⟨_, _, rfl, rfl, rfl⟩

theorem witness_OnlyGenWritesThePacketBuffer :
    let s := asked ready (.write 32 0x130 0x00000007)
    (∃ t, step s = .next t) ∧ s.ctxs[0]? = some ready ∧ (∀ p rest, s.inputs ≠ .reset p :: rest) ∧
    ∀ rest, s.inputs ≠ .host 0 (.write 32 0x130 0x00000008#32) :: rest :=
  ⟨⟨_, rfl⟩, rfl, by simp [asked, engine], by simp [asked, engine]⟩

theorem witness_ArbiterEmitsThePickedPacket :
    let s := engine true [fresh, full] [.arb 1]
    let z := engine true [fresh, full] [.arb 0]
    (s.inputs = .arb 1 :: [] ∧ s.ctxs[1]? = some full ∧ full.slot = some t6Slot) ∧
    z.inputs = .arb 0 :: [] ∧ z.ctxs[0]? = some fresh ∧ fresh.slot = none := ⟨⟨rfl, rfl, rfl⟩, rfl, rfl, rfl⟩

/-- For `IdleArbiterServesAPendingContext` and `EveryPendingPacketIsEmitted`. -/
theorem witness_idle :
    ((engine true [full, full]).inputs = [] ∧ (engine true [full, full]).ctxs[1]? = some full ∧ full.slot ≠ none) ∧
    (one fresh).inputs = [] ∧ ∀ (c : Nat) (x : Ctx), (one fresh).ctxs[c]? = some x → x.slot = none := by
  refine ⟨⟨rfl, rfl, by decide⟩, rfl, ?_⟩
  intro c x h
  cases c with
  | zero => cases h; rfl
  | succ c => simp [one, engine] at h

theorem witness_ParametersStayFixed : ∃ t, step (engine true [full] [.reset false]) = .next t := ⟨_, rfl⟩

theorem witness_QuiescentEngineRests :
    let s := engine true [fresh] [.arb 0, .reset true, .host 0 (.read 32 0)]
    s.quiescent = true ∧ (∃ t, step s = .next t) ∧ ∀ p rest, s.inputs ≠ .reset p :: rest :=
  ⟨rfl, ⟨_, rfl⟩, by simp [engine]⟩

theorem witness_PacketsLeaveInOrderUnchanged : ∃ t, step (asked ready (.write 32 0x130 0x0000000B)) = .next t := ⟨_, rfl⟩

/-- A context whose slot is full is good. -/
theorem full_good : full.Good std true where
  bufWf := by decide
  pktWf := by decide
  pktCells := by
    intro i
    show (Memory.read (Memory.ofBytes 0 gn1Bytes) i).isSome = true ↔ i < 40
    rw [Memory.read_ofBytes]
    simp [gn1Bytes]
  pktHead := by decide
  clsLegal := by decide
  openPriv := fun _ => rfl
  fatalNoPriv := by decide
  slotOpen := by
    intro p h
    obtain rfl : t6Slot = p := by simpa [full] using h
    decide

/-- A good state with a packet pending, for any inputs. -/
theorem pending_good (inputs : List Input) : (engine true [full] inputs).Good where
  someCtx := by simp [engine]
  ctxGood := by
    intro x h
    obtain rfl : x = full := by simpa [engine] using h
    exact full_good
  wireGood := by simp [engine]

/-- A good state without the privilege. -/
theorem noPriv_good (inputs : List Input) : (engine false [fresh] inputs).Good where
  someCtx := by simp [engine]
  ctxGood := by
    intro x h
    obtain rfl : x = fresh := by simpa [engine] using h
    exact
      { bufWf := rfl
        pktWf := rfl
        pktCells := by simp [fresh, Ctx.reset]
        pktHead := .inl rfl
        clsLegal := by decide
        openPriv := fun h => by cases h
        fatalNoPriv := fun _ => rfl
        slotOpen := by simp [fresh, Ctx.reset] }
  wireGood := by simp [engine]

theorem witness_PendingPacketIsKept :
    let s := engine true [full] [.host 0 (.write 32 0x130 0x0000000B)]
    s.Good ∧ s.ctxs[0]? = some full ∧ full.slot = some t6Slot ∧ s.cur = 0 ∧
    s.inputs = .host 0 (.write 32 0x130 0x0000000B) :: [] ∧ ∃ t, step s = .next t :=
  ⟨pending_good _, rfl, rfl, rfl, rfl, _, rfl⟩

theorem witness_WireOnlyGrows : ∃ t, step (engine true [full] [.arb 0]) = .next t := ⟨_, rfl⟩

/-- For `FatalGatesNothing` and `PrivilegeGatesTransmissionOnly`, both codes. -/
theorem witness_privilege :
    (one ready).ctxs[(one ready).cur]? = some ready ∧ (did .tx ready).cc = .ok ∧
    (engine false [ready]).ctxs[(engine false [ready]).cur]? = some ready ∧
    (ctx0 (exec .tx (engine false [ready]))).cc = .noPriv := ⟨rfl, by decide +kernel, rfl, by decide +kernel⟩

theorem witness_NothingIsSentWithoutPrivilege :
    let s := engine false [fresh] [.host 0 (.write 32 0x130 0x0000000B)]
    s.Good ∧ s.priv = false ∧ (∀ p, Input.reset p ∉ s.inputs) ∧ ∃ t, core.run 1 s = .next t :=
  ⟨noPriv_good _, rfl, by simp [engine], _, rfl⟩

theorem witness_EveryStepKeepsTheInvariant :
    (engine true [full] [.arb 0]).Good ∧ ∃ t, step (engine true [full] [.arb 0]) = .next t := ⟨pending_good _, _, rfl⟩

theorem witness_SafeRunsNeverStop : (engine true [full] [.host 0 (.read 32 0), .arb 0, .reset true]).safe = true := by decide

theorem witness_EncodeThenDecodeRoundTrips :
    let x := sized 65516 0
    (one x).ctxs[(one x).cur]? = some x ∧ 20 ≤ (20#32).toNat ∧ x.argOff.toNat + (20#32).toNat ≤ 65536 :=
  ⟨rfl, by decide, by decide⟩

theorem witness_DecodeThenEncode : (x4Bytes 0x5A).length = 20 := rfl

theorem witness_ChecksumExtremes : (List.replicate 65536 (0xFF : Byte)).length ≤ 65536 :=
  le_of_eq List.length_replicate

theorem witness_ChecksumVerifiesItself : (x2Bytes.take 10).length % 2 = 0 := rfl

/-- The segment ends at the end of `BUF`. -/
theorem witness_HostChecksASegment :
    let x := sized 0 0
    (one x).ctxs[(one x).cur]? = some x ∧ x.argOff.toNat + (12 + 65524) ≤ 65536 := ⟨rfl, by decide⟩

/-- For `GeneratedPacketVerifies` and `GenLeavesItsChecksum`: the longest payload, and a second state that holds the same payload at
another place and another stale checksum. -/
theorem witness_gen :
    let x := { gn1 with argOff := 41, argLen := 65495 }
    let y := { gn1 with argOff := 0, argLen := 0 }
    let z := { gn1 with argOff := 65536, argLen := 0, fTcp := { gn1.fTcp with csum := 7 } }
    ((one x).ctxs[(one x).cur]? = some x ∧ x.fvalid = true ∧ x.argOff.toNat + x.argLen.toNat ≤ 65536 ∧
      x.argLen.toNat ≤ 65495) ∧
    ((one z).ctxs[(one z).cur]? = some z ∧ z.fvalid = true ∧ z.argOff.toNat + z.argLen.toNat ≤ 65536 ∧ (one z).par = (one x).par ∧ z.fIp = y.fIp ∧
      z.fTcp = { y.fTcp with csum := 7 } ∧
      z.memRead z.argOff.toNat z.argLen.toNat = y.memRead y.argOff.toNat y.argLen.toNat) :=
  ⟨⟨rfl, rfl, by decide, by decide⟩, rfl, rfl, by decide, rfl, rfl, rfl, rfl⟩

/-- Each clause of R144 at the ends of its range of lengths. -/
theorem witness_ClassifierCornerCases :
    (iph 1).tail.length < 20 ∧ (iph 6).length = 20 ∧ byteAt (iph 6) 9 ≠ 1 ∧ (iph 1 ++ [3]).length = 21 ∧
    byteAt (iph 1 ++ [3]) 9 = 1 ∧ (iph 1 ++ [3, 0]).length = 22 ∧ byteAt (iph 1 ++ [3, 0]) 20 = 3 ∧
    byteAt (iph 1 ++ [3, 0]) 21 = 0 ∧ std.protoTcp ≠ std.protoIcmp ∧ byteAt (iph 6) 9 = std.protoTcp ∧ (iph 6 ++ [1, 2]).length = (iph 6 ++ [1, 2]).length := by decide

end Sys2Proof.Tests
end

section
/-! PROOFS. The step of a host access as a rule over one context: what it leaves unchanged outside that context, and what it makes of the
context and answers. -/

namespace Sys2Proof.Machine

/-- A host access that answers a next state was at the port of a context the engine has (log entry 12). -/
theorem ctx_of_step_host {s t : State} {c : Nat} {a : Access} {rest : List Input} (hi : s.inputs = .host c a :: rest)
    (h : step s = .next t) : ∃ x, s.ctxs[c]? = some x := by
  cases hx : s.ctxs[c]? with
  | none => simp [step, hi, runInput, hostAccess, hx] at h
  | some x => exact ⟨x, rfl⟩

/-- The frame of a host access (R12): `WIRE`, `PRIV` and every other context stay as they are. -/
theorem step_host_frame {s t : State} {c : Nat} {a : Access} {rest : List Input} (hi : s.inputs = .host c a :: rest)
    (h : step s = .next t) : t.wire = s.wire ∧ t.priv = s.priv ∧ ∀ d, d ≠ c → t.ctxs[d]? = s.ctxs[d]? := by
  obtain ⟨x, hx⟩ := ctx_of_step_host hi h
  rw [step_of_host hi hx] at h
  cases h
  exact ⟨rfl, rfl, fun d hd => List.getElem?_set_ne hd.symm⟩

/-- The outcome of a host access (R12): the accessed context and the response are `accessEffect` of that context, `PRIV` and the
parameters; no other part of the state enters. -/
theorem step_host_outcome {s : State} {c : Nat} {a : Access} {rest : List Input} {x : Ctx}
    (hi : s.inputs = .host c a :: rest) (hx : s.ctxs[c]? = some x) :
    ∃ t, step s = .next t ∧ t.ctxs[c]? = some (accessEffect s.par s.priv a x).1 ∧
      t.resp = some (accessEffect s.par s.priv a x).2 := by
  obtain ⟨hc, -⟩ := List.getElem?_eq_some_iff.mp hx
  exact ⟨_, step_of_host hi hx, List.getElem?_set_self hc, rfl⟩

end Sys2Proof.Machine

namespace Sys2Proof.Proofs

open Sys2Proof.Machine

/-- Settles O33: the first half is the frame of a host access; in the second both states' outcomes are the same function of the same
context, `PRIV` and parameters. -/
theorem contextsShareNothing : Obligations.ContextsShareNothing := by
  unfold Obligations.ContextsShareNothing
  constructor
  · intro s t c a rest hi h
    exact step_host_frame hi h
  · intro s s' c a rest rest' x hi hi' hx hx' hpriv hpar
    obtain ⟨t, ht, hctx, hresp⟩ := step_host_outcome hi hx
    obtain ⟨t', ht', hctx', hresp'⟩ := step_host_outcome hi' hx'
    rw [← hpar, ← hpriv] at hctx' hresp'
    exact ⟨t, t', _, ht, ht', hctx, hctx', hresp.trans hresp'.symm⟩

end Sys2Proof.Proofs
end

section
/-! PROOFS. The map of R41 read off `target`: at which widths and offsets each target stands, and which accesses the host port refuses. -/

namespace Sys2Proof.Machine

open Sys2Proof.Spec

/-- The IPv4 registers fill the first 11 words of their bank. -/
theorem exists_ipOffset_eq : ∀ k < 11, ∃ f ∈ ipFieldList, ipOffset f = 4 * k := by decide

/-- The TCP registers fill 9 words of their bank from 0x030 on. -/
theorem exists_tcpOffset_eq : ∀ k < 9, ∃ f ∈ tcpFieldList, tcpOffset f = 0x30 + 4 * k := by decide

/-- The operand registers of R16 fill 11 words from 0x100 on. -/
theorem exists_operandOffset_eq : ∀ k < 11,
    ∃ r ∈ [Reg.argOff, .argLen, .phSrc, .phDst, .phProto, .phLen, .fiSrc, .fiDst, .fiSport, .fiDport, .txDst],
      regOffset r = 0x100 + 4 * k := by decide

/-- `CMD`, `STATUS` and the result registers of R17 fill 5 words from 0x130 on. -/
theorem exists_controlOffset_eq : ∀ k < 5,
    ∃ r ∈ [Reg.cmd, .status, .resCsum, .resCls, .pktLen], regOffset r = 0x130 + 4 * k := by decide

theorem isRegOffset_regOffset (r : Reg) : IsRegOffset (regOffset r) := by
  cases r with
  | ip b f => cases b <;> cases f <;> simp [IsRegOffset, regOffset, bankBase, ipOffset]
  | tcp b f => cases b <;> cases f <;> simp [IsRegOffset, regOffset, bankBase, tcpOffset]
  | _ => simp [IsRegOffset, regOffset]

/-- The ranges of R41 are exactly the offsets of the registers: each range is one of the four tables above. -/
theorem isRegOffset_iff {a : Nat} : IsRegOffset a ↔ ∃ r, regOffset r = a := by
  constructor
  · rintro ⟨haligned, hH | hH | hF | hF | hArg | hCtl⟩
    · obtain ⟨f, -, hf⟩ := exists_ipOffset_eq (a / 4) (by omega)
      exact ⟨.ip .h f, by simp only [regOffset, bankBase]; omega⟩
    · obtain ⟨f, -, hf⟩ := exists_tcpOffset_eq ((a - 0x30) / 4) (by omega)
      exact ⟨.tcp .h f, by simp only [regOffset, bankBase]; omega⟩
    · obtain ⟨f, -, hf⟩ := exists_ipOffset_eq ((a - 0x80) / 4) (by omega)
      exact ⟨.ip .f f, by simp only [regOffset, bankBase]; omega⟩
    · obtain ⟨f, -, hf⟩ := exists_tcpOffset_eq ((a - 0xB0) / 4) (by omega)
      exact ⟨.tcp .f f, by simp only [regOffset, bankBase]; omega⟩
    · obtain ⟨r, -, hr⟩ := exists_operandOffset_eq ((a - 0x100) / 4) (by omega)
      exact ⟨r, by omega⟩
    · obtain ⟨r, -, hr⟩ := exists_controlOffset_eq ((a - 0x130) / 4) (by omega)
      exact ⟨r, by omega⟩
  · rintro ⟨r, rfl⟩
    exact isRegOffset_regOffset r

/-- The read-only registers of R17 are the ones above `CMD`. -/
theorem regWritable_iff {r : Reg} : regWritable r = true ↔ regOffset r ≤ 0x130 := by
  cases r with
  | ip b f => cases b <;> cases f <;> simp [regWritable, regOffset, bankBase, ipOffset]
  | tcp b f => cases b <;> cases f <;> simp [regWritable, regOffset, bankBase, tcpOffset]
  | _ => simp [regWritable, regOffset]

theorem regAt_eq_some_iff {a : Nat} {r : Reg} : regAt a = some r ↔ regOffset r = a :=
  ⟨regOffset_of_regAt, fun h => h ▸ regAt_regOffset r⟩

/-- The access width and the offset at which a target stands (R41, R44). -/
def Target.StandsAt (p : Params) (width addr : Nat) : Target → Prop
  | .reg r => width = 32 ∧ regOffset r = addr
  | .buf i => width = 8 ∧ i < p.bufCap ∧ 0x10000 + i = addr
  | .pkt i => width = 8 ∧ i < Config.pktCap ∧ 0x20000 + i = addr

/-- The host port reaches a target exactly where it stands. -/
theorem target_eq_some_iff {p : Params} {width addr : Nat} {t : Target} :
    target p width addr = some t ↔ t.StandsAt p width addr := by
  constructor
  · intro h
    unfold target bufBase pktBase at h
    split_ifs at h with h32 h8 hbuf hpkt
    · obtain ⟨r, hr, rfl⟩ := Option.map_eq_some_iff.mp h
      exact ⟨h32, regOffset_of_regAt hr⟩
    · cases h
      exact ⟨h8, by omega, by omega⟩
    · cases h
      exact ⟨h8, by omega, by omega⟩
  · intro h
    cases t with
    | reg r => obtain ⟨rfl, rfl⟩ := h; exact target_reg p r
    | buf i => obtain ⟨rfl, hi, rfl⟩ := h; exact target_buf hi
    | pkt i => obtain ⟨rfl, hi, rfl⟩ := h; exact target_pkt hi

/-- Whether the host may write a target: not a read-only register and not `PKT` (R17, R20). -/
def Target.writable : Target → Bool
  | .reg r => regWritable r
  | .buf _ => true
  | .pkt _ => false

/-- The reads that R45 leaves are those that reach something. -/
theorem allowed_read_iff {p : Params} {width addr : Nat} :
    Allowed p.bufCap (.read width addr) ↔ ∃ t, target p width addr = some t := by
  simp only [target_eq_some_iff, Allowed, isRegOffset_iff]
  constructor
  · rintro (⟨hw, r, hr⟩ | ⟨hw, hlo, hhi⟩ | ⟨hw, hlo, hhi⟩)
    · exact ⟨.reg r, hw, hr⟩
    · exact ⟨.buf (addr - 0x10000), hw, by omega, by omega⟩
    · exact ⟨.pkt (addr - 0x20000), hw, by unfold Config.pktCap; omega, by omega⟩
  · rintro ⟨r | i | i, ht⟩
    · obtain ⟨hw, hr⟩ := ht
      exact .inl ⟨hw, r, hr⟩
    · obtain ⟨hw, hi, ha⟩ := ht
      exact .inr (.inl ⟨hw, by omega, by omega⟩)
    · obtain ⟨hw, hi, ha⟩ := ht
      unfold Config.pktCap at hi
      exact .inr (.inr ⟨hw, by omega, by omega⟩)

/-- The writes that R45 leaves are those that reach something the host may write. -/
theorem allowed_write_iff {p : Params} {width addr : Nat} {v : Word} :
    Allowed p.bufCap (.write width addr v) ↔ ∃ t, target p width addr = some t ∧ t.writable = true := by
  simp only [target_eq_some_iff, Allowed, isRegOffset_iff]
  constructor
  · rintro (⟨hw, ⟨r, hr⟩, hle⟩ | ⟨hw, hlo, hhi⟩)
    · exact ⟨.reg r, ⟨hw, hr⟩, regWritable_iff.mpr (hr ▸ hle)⟩
    · exact ⟨.buf (addr - 0x10000), ⟨hw, by omega, by omega⟩, rfl⟩
  · rintro ⟨r | i | i, ht, hwr⟩
    · obtain ⟨hw, hr⟩ := ht
      exact .inl ⟨hw, ⟨r, hr⟩, hr ▸ regWritable_iff.mp hwr⟩
    · obtain ⟨hw, hi, ha⟩ := ht
      exact .inr ⟨hw, by omega, by omega⟩
    · cases hwr

/-- A read answers the error response exactly where it reaches nothing. -/
theorem Ctx.hostRead_eq_error_iff {p : Params} {x : Ctx} {width addr : Nat} :
    x.hostRead p width addr = .error ↔ target p width addr = none := by
  unfold Ctx.hostRead
  cases target p width addr with
  | none => simp
  | some t => cases t <;> simp

/-- A write of something the host may write is answered `done`. -/
theorem writeEffect_of_writable {p : Params} {priv : Bool} {width addr : Nat} {v : Word} {x : Ctx} {t : Target}
    (ht : target p width addr = some t) (hw : t.writable = true) : (writeEffect p priv width addr v x).2 = .done := by
  unfold writeEffect
  rw [ht]
  cases t with
  | reg r =>
    by_cases hc : r = .cmd
    · subst hc; rfl
    · have hr : regWritable r = true := hw
      simp [hr]
  | buf i => rfl
  | pkt i => cases hw

/-- Any other write leaves the context as it is and is answered with the error response (R45). -/
theorem writeEffect_of_not_writable {p : Params} {priv : Bool} {width addr : Nat} {v : Word} {x : Ctx}
    (h : ¬ ∃ t, target p width addr = some t ∧ t.writable = true) : writeEffect p priv width addr v x = (x, .error) := by
  unfold writeEffect
  cases ht : target p width addr with
  | none => rfl
  | some t =>
    have hw : t.writable ≠ true := fun hw => h ⟨t, ht, hw⟩
    cases t with
    | reg r =>
      have hr : regWritable r ≠ true := hw
      have hc : r ≠ .cmd := fun hc => hr (by rw [hc]; rfl)
      simp [hr]
    | buf i => exact absurd rfl hw
    | pkt i => rfl

/-- A refused access leaves the context as it is and is answered with the error response (R45). -/
theorem accessEffect_of_not_allowed {p : Params} {priv : Bool} {a : Access} {x : Ctx} (h : ¬ Allowed p.bufCap a) :
    accessEffect p priv a x = (x, .error) := by
  cases a with
  | read width addr =>
    rw [allowed_read_iff, ← Option.isSome_iff_exists, Option.not_isSome_iff_eq_none] at h
    exact congrArg (Prod.mk x) (Ctx.hostRead_eq_error_iff.mpr h)
  | write width addr v => exact writeEffect_of_not_writable (allowed_write_iff.not.mp h)

/-- An access that the map allows is not answered with the error response. -/
theorem accessEffect_resp_ne_error {p : Params} {priv : Bool} {a : Access} {x : Ctx} (h : Allowed p.bufCap a) :
    (accessEffect p priv a x).2 ≠ .error := by
  cases a with
  | read width addr =>
    obtain ⟨t, ht⟩ := allowed_read_iff.mp h
    exact fun herr => by simp [Ctx.hostRead_eq_error_iff.mp herr] at ht
  | write width addr v =>
    obtain ⟨t, ht, hw⟩ := allowed_write_iff.mp h
    simp [accessEffect, writeEffect_of_writable ht hw]

end Sys2Proof.Machine

namespace Sys2Proof.Proofs

open Sys2Proof.Machine

/-- Settles O22: the step of a host access is `accessEffect` on its context, which answers the error response exactly outside the map and
then leaves the context as it is. -/
theorem refusedAccessChangesNothing : Obligations.RefusedAccessChangesNothing := by
  unfold Obligations.RefusedAccessChangesNothing
  intro s c a rest x hi hx
  rw [step_of_host hi hx]
  constructor
  · intro hrefused
    rw [accessEffect_of_not_allowed hrefused, State.set_same hx]
  · intro hallowed
    exact ⟨_, _, rfl, rfl, accessEffect_resp_ne_error hallowed⟩

end Sys2Proof.Proofs
end

section
/-! PROOFS. The opcode map read both ways: which word decodes to a command, and which words decode to nothing (R70, R71, R73). -/

namespace Sys2Proof

/-- A byte names a command exactly when it is the command's opcode. -/
theorem instrOfOpcode_eq_some_iff {op : Byte} {i : Instr} : instrOfOpcode op = some i ↔ opcode i = op := by
  constructor
  · intro h
    unfold instrOfOpcode at h
    split at h <;> cases h <;> exact BitVec.eq_of_toNat_eq (Eq.symm ‹_›)
  · rintro rfl
    cases i <;> rfl

/-- The bytes that name no command are those from 12 on. -/
theorem instrOfOpcode_eq_none_iff {op : Byte} : instrOfOpcode op = none ↔ 12 ≤ op.toNat := by
  constructor
  · intro h
    unfold instrOfOpcode at h
    split at h
    case h_13 =>
      simp only [imp_false] at *
      omega
    all_goals cases h
  · intro h
    cases hi : instrOfOpcode op with
    | none => rfl
    | some i =>
      obtain rfl := instrOfOpcode_eq_some_iff.mp hi
      cases i <;> exact absurd h (by decide)

/-- R71 for a legal word: the upper 24 bits are 0 and the low byte is the command's opcode. -/
theorem decode_eq_ok_iff {w : Word} {i : Instr} :
    decode w = .ok i ↔ w.extractLsb' 8 24 = 0 ∧ opcode i = w.extractLsb' 0 8 := by
  rw [← instrOfOpcode_eq_some_iff]
  unfold decode
  split_ifs with hz
  · cases instrOfOpcode (w.extractLsb' 0 8) <;> simp [hz]
  · exact ⟨nofun, fun ⟨hz', _⟩ => absurd hz' hz⟩

/-- R71 for an illegal word: an upper bit is set, or the low byte is no opcode. -/
theorem decode_ne_ok_iff {w : Word} :
    (∀ i, decode w ≠ .ok i) ↔ w.extractLsb' 8 24 ≠ 0 ∨ 12 ≤ (w.extractLsb' 0 8).toNat := by
  rw [← instrOfOpcode_eq_none_iff, Option.eq_none_iff_forall_ne_some]
  simp only [ne_eq, decode_eq_ok_iff, ← instrOfOpcode_eq_some_iff, not_and_or, forall_or_left]

/-- A word with its upper 24 bits 0 is its low byte zero-extended. -/
theorem eq_setWidth_iff {w : Word} {op : Byte} : w = op.setWidth 32 ↔ w.extractLsb' 8 24 = 0 ∧ op = w.extractLsb' 0 8 := by
  have hop := op.isLt
  simp only [← BitVec.toNat_inj, Machine.slice_toNat, BitVec.toNat_setWidth, BitVec.ofNat_eq_ofNat, BitVec.toNat_ofNat]
  omega

/-- R73: one word for each command, the whole word compared. -/
theorem decode_eq_ok_iff_eq_encode {w : Word} {i : Instr} : decode w = .ok i ↔ w = encode i :=
  decode_eq_ok_iff.trans eq_setWidth_iff.symm

end Sys2Proof

namespace Sys2Proof.Proofs

/-- Settles O2: a word decodes to a command exactly when it is the command's encoding, which is the word of its row. -/
theorem eachMnemonicHasOneWord : Obligations.EachMnemonicHasOneWord := by
  unfold Obligations.EachMnemonicHasOneWord
  intro w
  simp only [decode_eq_ok_iff_eq_encode]
  refine ⟨?_, ?_, ?_, ?_, ?_, ?_, ?_, ?_, ?_, ?_, ?_, ?_⟩ <;> exact Iff.rfl

end Sys2Proof.Proofs
end

section
/-! PROOFS. The step of a host's write to `CMD`: it runs the word written on the state in which `CMD` holds it. -/

namespace Sys2Proof.Machine

open Sys2Proof.Spec

/-- A legal command word runs its command. -/
theorem runCommand_of_ok {w : Word} {i : Instr} (h : decode w = .ok i) (s : State) : runCommand w s = exec i s := by
  simp [runCommand, h]

/-- An illegal command word raises `ILLEGAL` and does no more (R71). -/
theorem runCommand_of_ne_ok {w : Word} (h : ∀ i, decode w ≠ .ok i) (s : State) :
    runCommand w s = onCtx s fun x => x.raise .illegal := by
  unfold runCommand
  cases hw : decode w with
  | ok i => exact absurd hw (h i)
  | error e => rfl

/-- A 32-bit write to 0x130 stores the word in `CMD`, runs it and is answered `done` (R17). -/
theorem accessEffect_write_cmd (p : Params) (priv : Bool) (w : Word) (x : Ctx) :
    accessEffect p priv (.write 32 0x130 w) x = (wordEffect p priv w { x with cmd := w }, .done) := by
  simp [accessEffect, writeEffect]

/-- Once the write to `CMD` is taken, the context in use is the written one, with the word in `CMD`. -/
theorem ctx_afterCmdWrite {s : State} {c : Nat} {x : Ctx} (hx : s.ctxs[c]? = some x) (w : Word) (rest : List Input) :
    (afterCmdWrite s c x w rest).ctxs[(afterCmdWrite s c x w rest).cur]? = some { x with cmd := w } := by
  obtain ⟨hc, -⟩ := List.getElem?_eq_some_iff.mp hx
  exact List.getElem?_set_self hc

/-- A command that runs after the write to `CMD` replaces the written context by its effect. -/
theorem onCtx_afterCmdWrite {s : State} {c : Nat} {x : Ctx} (hx : s.ctxs[c]? = some x) (w : Word) (rest : List Input)
    (f : Ctx → Ctx) :
    onCtx (afterCmdWrite s c x w rest) f =
      .next { afterCmdWrite s c x w rest with ctxs := s.ctxs.set c (f { x with cmd := w }) } := by
  rw [onCtx_of_some (ctx_afterCmdWrite hx w rest)]
  simp [State.setCtx, afterCmdWrite]

/-- R71 at the step: the write of a word to `CMD` runs that word. -/
theorem step_write_cmd {s : State} {c : Nat} {w : Word} {rest : List Input} {x : Ctx}
    (hi : s.inputs = .host c (.write 32 0x130 w) :: rest) (hx : s.ctxs[c]? = some x) :
    step s = runCommand w (afterCmdWrite s c x w rest) := by
  rw [step_of_host hi hx, accessEffect_write_cmd, runCommand_eq, onCtx_afterCmdWrite hx]
  rfl

end Sys2Proof.Machine

namespace Sys2Proof.Proofs

open Sys2Proof.Machine

/-- Settles O4: the step runs the word written, and the decoder's two characterisations say what a legal and an illegal word do. -/
theorem stepRunsTheWordWrittenToCmd : Obligations.StepRunsTheWordWrittenToCmd := by
  unfold Obligations.StepRunsTheWordWrittenToCmd
  intro s c w rest x hi hx
  rw [step_write_cmd hi hx]
  refine ⟨?legal, decode_ne_ok_iff.symm, ?illegal⟩
  case legal =>
    intro i hw
    exact ⟨(decode_eq_ok_iff.mp hw).2, runCommand_of_ok hw _⟩
  case illegal =>
    intro hw
    rw [runCommand_of_ne_ok hw, onCtx_afterCmdWrite hx]
    rfl

end Sys2Proof.Proofs
end

section
/-! PROOFS. A byte string as the big-endian number its bytes make up (R5), the numbers the two headers are, and what decoding and encoding
undo of each other (R61, R63, R90 to R93, R100). -/

namespace Sys2Proof.Machine

open Sys2Proof.Spec

/-- The number a byte string is, its first byte the most significant. -/
def beNat : List Byte → Nat
  | [] => 0
  | b :: s => b.toNat * 2 ^ (8 * s.length) + beNat s

@[simp] theorem beNat_nil : beNat [] = 0 := rfl

@[simp] theorem beNat_cons (b : Byte) (s : List Byte) : beNat (b :: s) = b.toNat * 2 ^ (8 * s.length) + beNat s := rfl

theorem beNat_lt (s : List Byte) : beNat s < 2 ^ (8 * s.length) := by
  induction s with
  | nil => simp
  | cons b s ih =>
    have hb : b.toNat + 1 ≤ 2 ^ 8 := b.isLt
    calc beNat (b :: s)
      _ < (b.toNat + 1) * 2 ^ (8 * s.length) := by
        rw [beNat_cons, Nat.add_one_mul b.toNat]
        exact Nat.add_lt_add_left ih _
      _ ≤ 2 ^ 8 * 2 ^ (8 * s.length) := Nat.mul_le_mul_right _ hb
      _ = 2 ^ (8 * (b :: s).length) := by rw [← pow_add, List.length_cons, Nat.mul_succ, Nat.add_comm]

@[simp] theorem beNat_append (s r : List Byte) : beNat (s ++ r) = beNat s * 2 ^ (8 * r.length) + beNat r := by
  induction s with
  | nil => simp
  | cons b s ih =>
    rw [List.cons_append, beNat_cons, beNat_cons, ih, List.length_append, Nat.mul_add, pow_add]
    ring

@[simp] theorem beNat_be16 (v : Half) : beNat (be16 v) = v.toNat := by
  have := v.isLt
  simp only [be16, beNat_cons, beNat_nil, List.length_cons, List.length_nil, slice_toNat]
  omega

@[simp] theorem beNat_be32 (v : Word) : beNat (be32 v) = v.toNat := by
  have := v.isLt
  simp only [be32, beNat_cons, beNat_nil, List.length_cons, List.length_nil, slice_toNat]
  omega

/-- A byte of a byte string, behind the bytes `s`, is the byte of that index of the number the whole string is. -/
theorem byteOf_beNat_append_cons (s r : List Byte) (b : Byte) :
    byteOf (s ++ b :: r).length (beNat (s ++ b :: r)) s.length = b := by
  have hindex : (s ++ b :: r).length - 1 - s.length = r.length := by simp
  have hnumber : beNat (s ++ b :: r) = (beNat s * 2 ^ 8 + b.toNat) * 2 ^ (8 * r.length) + beNat r := by
    simp only [beNat_append, beNat_cons, List.length_cons, Nat.mul_succ, pow_add]
    ring
  have hquotient : beNat (s ++ b :: r) / 2 ^ (8 * r.length) = beNat s * 2 ^ 8 + b.toNat := by
    rw [hnumber, Nat.add_comm, Nat.add_mul_div_right _ _ (Nat.two_pow_pos _), Nat.div_eq_of_lt (beNat_lt r), Nat.zero_add]
  have := b.isLt
  apply BitVec.eq_of_toNat_eq
  rw [byteOf, hindex, hquotient, BitVec.toNat_ofNat]
  omega

/-- The bytes of a byte string are the bytes of its number. -/
theorem getD_eq_byteOf_beNat {s : List Byte} {k : Nat} (hk : k < s.length) : s.getD k 0 = byteOf s.length (beNat s) k := by
  have hsplit := byteOf_beNat_append_cons (s.take k) (s.drop (k + 1)) s[k]
  rw [← List.drop_eq_getElem_cons hk, List.take_append_drop, List.length_take_of_le hk.le] at hsplit
  rw [hsplit, List.getD_eq_getElem s 0 hk]

/-- The encoded IPv4 header is the number of R61. -/
theorem beNat_encodeIp (h : IpHdr) : beNat (encodeIp h) = ipBits h := by
  simp only [encodeIp, ipBits, beNat_append, beNat_cons, beNat_nil, beNat_be16, beNat_be32, joinNibbles_toNat, List.length_cons,
    List.length_nil, length_be16, length_be32]
  ring

/-- The encoded TCP header is the number of R63, the reserved nibble 0 (R64). -/
theorem beNat_encodeTcp (t : TcpHdr) : beNat (encodeTcp t) = tcpBits t := by
  simp only [encodeTcp, tcpBits, beNat_append, beNat_cons, beNat_nil, beNat_be16, beNat_be32, joinNibbles_toNat, List.length_cons,
    List.length_nil, length_be16, length_be32, BitVec.ofNat_eq_ofNat, BitVec.toNat_zero]
  ring

/-- A byte string, byte by byte. -/
theorem map_byteAt_range (s : List Byte) : (List.range s.length).map (byteAt s) = s := by
  apply List.ext_getElem (by simp)
  intro k _ hk
  simp [byteAt, hk]

theorem be16_u16 (s : List Byte) (i : Nat) : be16 (u16 s i) = [byteAt s i, byteAt s (i + 1)] := be16_joinBytes _ _

theorem be32_u32 (s : List Byte) (i : Nat) :
    be32 (u32 s i) = [byteAt s i, byteAt s (i + 1), byteAt s (i + 2), byteAt s (i + 3)] := be32_joinHalves _ _ _ _

/-- R100 for IPv4: the eleven fields cover all 160 bits. -/
theorem encodeIp_ipFields {s : List Byte} (hs : s.length = 20) : encodeIp (ipFields s) = s :=
  calc encodeIp (ipFields s)
    _ = (List.range 20).map (byteAt s) := by simp [encodeIp, ipFields, be16_u16, be32_u32, List.range_succ]
    _ = s := by rw [← hs, map_byteAt_range]

/-- The high nibble of a byte with a zero below it is the byte with its low nibble cleared. -/
theorem joinNibbles_high_zero (b : Byte) : joinNibbles (b.extractLsb' 4 4) 0#4 = b &&& 0xF0#8 := by
  revert b
  decide

/-- A byte whose low nibble is cleared is the same byte exactly when that nibble is 0 already. -/
theorem and_high_eq_self_iff (b : Byte) : b &&& 0xF0#8 = b ↔ b &&& 0x0F#8 = 0 := by
  revert b
  decide

/-- R100 for TCP: the low nibble of byte 12 is lost, every other bit is in one of the nine fields. -/
theorem encodeTcp_tcpFields {s : List Byte} (hs : s.length = 20) :
    encodeTcp (tcpFields s) = s.set 12 (s.getD 12 0 &&& 0xF0#8) :=
  calc encodeTcp (tcpFields s)
    _ = ((List.range 20).map (byteAt s)).set 12 (byteAt s 12 &&& 0xF0#8) := by
      simp [encodeTcp, tcpFields, be16_u16, be32_u32, List.range_succ, joinNibbles_high_zero]
    _ = s.set 12 (s.getD 12 0 &&& 0xF0#8) := by rw [← hs, map_byteAt_range, byteAt]

/-- R98 for the record of an IPv4 header: decoding undoes encoding. -/
theorem ipFields_encodeIp (h : IpHdr) : ipFields (encodeIp h) = h := by
  simp [ipFields, encodeIp, be16, be32, u16, u32, byteAt]

/-- R98 for the record of a TCP header: decoding undoes encoding. -/
theorem tcpFields_encodeTcp (t : TcpHdr) : tcpFields (encodeTcp t) = t := by
  simp [tcpFields, encodeTcp, be16, be32, u16, u32, byteAt]

/-- Putting a byte in a place leaves the string as it is exactly when that byte stood there. -/
theorem set_getD_eq_self_iff {s : List Byte} {k : Nat} (hk : k < s.length) (b : Byte) : s.set k b = s ↔ b = s.getD k 0 := by
  constructor
  · intro h
    rw [← h]
    simp [hk]
  · rintro rfl
    simp [hk]

end Sys2Proof.Machine
end

section
/-! PROOFS. The codec commands: what a command that puts bytes at `ARG_OFF` and a command that loads a header do in each outcome (R46,
R94 to R97), and the round trip through `BUF` (R98). -/

namespace Sys2Proof.Machine

open Sys2Proof.Spec

/-- A command on a context that exists replaces it by the command's effect. -/
theorem exec_eq_withCur {s : State} {x : Ctx} (hx : s.ctxs[s.cur]? = some x) (i : Instr) :
    exec i s = .next (withCur s (effect s.par s.priv i x)) := by
  rw [exec_eq_onCtx, onCtx_of_some hx]
  rfl

/-- Once the context in use is replaced, it is the new one. -/
theorem ctx_withCur {s : State} {x : Ctx} (hx : s.ctxs[s.cur]? = some x) (y : Ctx) :
    (withCur s y).ctxs[(withCur s y).cur]? = some y := by
  obtain ⟨hc, -⟩ := List.getElem?_eq_some_iff.mp hx
  exact List.getElem?_set_self hc

/-- Of two replacements of the context in use the second stays. -/
theorem withCur_withCur (s : State) (y z : Ctx) : withCur (withCur s y) z = withCur s z := by simp [withCur]

theorem Ctx.getD_memRead (x : Ctx) (a : Nat) {n k : Nat} (hk : k < n) : (x.memRead a n).getD k 0 = x.bufByte (a + k) := by
  rw [List.getD_eq_getElem?_getD, Ctx.getElem?_memRead, if_pos hk]
  rfl

/-- Reading back a byte string just written. -/
theorem Ctx.memRead_memWrite (x : Ctx) (a : Nat) (b : List Byte) : (x.memWrite a b).memRead a b.length = b := by
  apply List.ext_getElem?
  intro k
  rw [Ctx.getElem?_memRead, Ctx.bufByte_memWrite]
  by_cases hk : k < b.length <;> simp [hk]

/-- A command whose effect is to put a byte string at `ARG_OFF`, where it fits. -/
theorem exec_of_emit_of_fits {s : State} {x : Ctx} {i : Instr} {b : List Byte} (hx : s.ctxs[s.cur]? = some x)
    (hi : effect s.par s.priv i x = x.emit s.par b) (hfits : x.argOff.toNat + b.length ≤ s.par.bufCap) :
    exec i s = .next (withCur s ((x.memWrite x.argOff.toNat b).complete .ok)) := by
  rw [exec_eq_withCur hx, hi, Ctx.emit_of_fits hfits]

/-- After such a command the byte string is read back from `ARG_OFF`, which stays as it is. -/
theorem exists_memRead_of_emit {s : State} {x : Ctx} {i : Instr} {b : List Byte} (hx : s.ctxs[s.cur]? = some x)
    (hi : effect s.par s.priv i x = x.emit s.par b) (hfits : x.argOff.toNat + b.length ≤ s.par.bufCap) :
    ∃ y, exec i s = .next (withCur s y) ∧ y.argOff = x.argOff ∧ y.memRead y.argOff.toNat b.length = b :=
  ⟨_, exec_of_emit_of_fits hx hi hfits, rfl, x.memRead_memWrite x.argOff.toNat b⟩

/-- A command whose effect is to put a byte string at `ARG_OFF`, by its two outcomes: the bytes of the string's number stand there and
every other byte is as before, or `RANGE` and nothing else (R46). -/
theorem exec_of_emit {s : State} {x : Ctx} {i : Instr} {b : List Byte} {v : Nat} (hx : s.ctxs[s.cur]? = some x)
    (hi : effect s.par s.priv i x = x.emit s.par b) (hv : beNat b = v) :
    (x.argOff.toNat + b.length ≤ s.par.bufCap → ∃ m,
      exec i s = .next (withCur s { x with buf := m, cc := .ok }) ∧
      (∀ k, k < b.length → { x with buf := m }.bufByte (x.argOff.toNat + k) = byteOf b.length v k) ∧
      ∀ a, a < x.argOff.toNat ∨ x.argOff.toNat + b.length ≤ a → { x with buf := m }.bufByte a = x.bufByte a) ∧
    (s.par.bufCap < x.argOff.toNat + b.length → exec i s = .next (withCur s { x with cc := .range })) := by
  constructor
  case left =>
    intro hfits
    refine ⟨x.buf.writeBytes x.argOff.toNat b, exec_of_emit_of_fits hx hi hfits, fun k hk => ?inside, fun a ha => ?outside⟩
    case inside =>
      have hread := Ctx.bufByte_memWrite x x.argOff.toNat b (x.argOff.toNat + k)
      rwa [if_pos (by omega), Nat.add_sub_cancel_left, getD_eq_byteOf_beNat hk, hv] at hread
    case outside =>
      have hread := Ctx.bufByte_memWrite x x.argOff.toNat b a
      rwa [if_neg (by omega)] at hread
  case right =>
    intro hrange
    rw [exec_eq_withCur hx, hi, Ctx.emit_of_not_fits hrange]
    rfl

/-- A command whose effect is to make `y` of the context after the checks of R95 and R97, by its three outcomes. -/
theorem exec_of_load {s : State} {x y : Ctx} {i : Instr} (hx : s.ctxs[s.cur]? = some x)
    (hi : effect s.par s.priv i x = if x.outside s.par x.argLen.toNat then x.raise .range
      else if x.argLen.toNat < 20 then x.raise .malformed else y.complete .ok) :
    (x.argOff.toNat + x.argLen.toNat ≤ s.par.bufCap → 20 ≤ x.argLen.toNat →
      exec i s = .next (withCur s (y.complete .ok))) ∧
    (s.par.bufCap < x.argOff.toNat + x.argLen.toNat → exec i s = .next (withCur s { x with cc := .range })) ∧
    (x.argOff.toNat + x.argLen.toNat ≤ s.par.bufCap → x.argLen.toNat < 20 →
      exec i s = .next (withCur s { x with cc := .malformed })) := by
  rw [exec_eq_withCur hx, hi, Ctx.ite_outside]
  refine ⟨fun hfits hlong => ?_, fun hrange => ?_, fun hfits hshort => ?_⟩
  · rw [if_neg (by omega), if_neg (by omega)]
  · rw [if_pos hrange]
    rfl
  · rw [if_neg (by omega), if_pos hshort]
    rfl

/-- Twenty bytes of `BUF` are the bytes of the IPv4 header decoded from them. -/
theorem Ctx.bufByte_eq_byteOf_ipFields (x : Ctx) (a : Nat) {k : Nat} (hk : k < 20) :
    x.bufByte (a + k) = byteOf 20 (ipBits (ipFields (x.memRead a 20))) k :=
  calc x.bufByte (a + k)
    _ = (x.memRead a 20).getD k 0 := (x.getD_memRead a hk).symm
    _ = (encodeIp (ipFields (x.memRead a 20))).getD k 0 := by rw [encodeIp_ipFields (x.length_memRead a 20)]
    _ = byteOf 20 (ipBits (ipFields (x.memRead a 20))) k := by rw [getD_eq_byteOf_beNat hk, beNat_encodeIp]; rfl

/-- The bytes of the TCP header decoded from twenty bytes of `BUF` are those bytes, byte 12 without its low nibble. -/
theorem Ctx.byteOf_tcpFields (x : Ctx) (a : Nat) {k : Nat} (hk : k < 20) :
    byteOf 20 (tcpBits (tcpFields (x.memRead a 20))) k =
      if k = 12 then x.bufByte (a + 12) &&& 0xF0#8 else x.bufByte (a + k) :=
  calc byteOf 20 (tcpBits (tcpFields (x.memRead a 20))) k
    _ = (encodeTcp (tcpFields (x.memRead a 20))).getD k 0 := by rw [getD_eq_byteOf_beNat hk, beNat_encodeTcp]; rfl
    _ = ((x.memRead a 20).set 12 (x.bufByte (a + 12) &&& 0xF0#8)).getD k 0 := by
      rw [encodeTcp_tcpFields (x.length_memRead a 20), x.getD_memRead a (by decide)]
    _ = if k = 12 then x.bufByte (a + 12) &&& 0xF0#8 else x.bufByte (a + k) := by
      split
      case isTrue h => simp [h]
      case isFalse h => rw [← x.getD_memRead a hk]; simp [List.getElem?_set_ne (Ne.symm h)]

end Sys2Proof.Machine

namespace Sys2Proof.Proofs

open Sys2Proof.Machine Sys2Proof.Spec

/-- Settles O6: the effect is to put the encoded header, which is the number of R61, at `ARG_OFF`. -/
theorem encIpWritesTheHeader : Obligations.EncIpWritesTheHeader := by
  unfold Obligations.EncIpWritesTheHeader
  exact ⟨rfl, fun s x hx => exec_of_emit hx rfl (beNat_encodeIp x.hIp)⟩

/-- Settles O7: the fields loaded are those decoded from the 20 bytes, which encode back to them. -/
theorem decIpLoadsTheHeader : Obligations.DecIpLoadsTheHeader := by
  unfold Obligations.DecIpLoadsTheHeader
  refine ⟨rfl, fun s x hx => ?_⟩
  obtain ⟨hok, hrange, hmalformed⟩ := exec_of_load (i := .decIp) hx rfl
  exact ⟨fun hfits hlong => ⟨_, hok hfits hlong, fun k hk => x.bufByte_eq_byteOf_ipFields _ hk⟩, hrange, hmalformed⟩

/-- Settles O8: the effect is to put the encoded header, which is the number of R63, at `ARG_OFF`. -/
theorem encTcpWritesTheHeader : Obligations.EncTcpWritesTheHeader := by
  unfold Obligations.EncTcpWritesTheHeader
  exact ⟨rfl, fun s x hx => exec_of_emit hx rfl (beNat_encodeTcp x.hTcp)⟩

/-- Settles O9: the fields loaded are those decoded from the 20 bytes, which encode back to them but for the low nibble of byte 12. -/
theorem decTcpLoadsTheHeader : Obligations.DecTcpLoadsTheHeader := by
  unfold Obligations.DecTcpLoadsTheHeader
  refine ⟨rfl, fun s x hx => ?_⟩
  obtain ⟨hok, hrange, hmalformed⟩ := exec_of_load (i := .decTcp) hx rfl
  refine ⟨fun hfits hlong => ⟨_, hok hfits hlong, fun k hk hne => ?_, ?_⟩, hrange, hmalformed⟩
  · rw [x.byteOf_tcpFields _ hk, if_neg hne]
  · rw [x.byteOf_tcpFields _ (by decide), if_pos rfl]

/-- Settles O50: the decode reads back the bytes that the encode wrote, and their fields are the record they encode. -/
theorem encodeThenDecodeRoundTrips : Obligations.EncodeThenDecodeRoundTrips := by
  unfold Obligations.EncodeThenDecodeRoundTrips
  intro s x n hx hlong hfits
  have hheader : x.argOff.toNat + 20 ≤ s.par.bufCap := by omega
  refine ⟨fun h => ?ip, fun t => ?tcp⟩
  case ip =>
    obtain ⟨y, henc, hoff, hread⟩ := exists_memRead_of_emit (i := .encIp) hx rfl hheader
    obtain ⟨hdec, -, -⟩ := exec_of_load (i := .decIp) (ctx_withCur hx { y with hIp := h, argLen := n }) rfl
    rw [withCur_withCur] at hdec
    rw [← hoff] at hfits
    refine ⟨y, _, henc, hdec hfits hlong, ?_, rfl⟩
    exact (congrArg ipFields hread).trans (ipFields_encodeIp x.hIp)
  case tcp =>
    obtain ⟨y, henc, hoff, hread⟩ := exists_memRead_of_emit (i := .encTcp) hx rfl hheader
    obtain ⟨hdec, -, -⟩ := exec_of_load (i := .decTcp) (ctx_withCur hx { y with hTcp := t, argLen := n }) rfl
    rw [withCur_withCur] at hdec
    rw [← hoff] at hfits
    refine ⟨y, _, henc, hdec hfits hlong, ?_, rfl⟩
    exact (congrArg tcpFields hread).trans (tcpFields_encodeTcp x.hTcp)

/-- Settles O51: the length is what decoding checks; encoding gives the bytes back, TCP with byte 12 masked, and the mask is the identity
exactly on a byte whose low nibble is 0. -/
theorem decodeThenEncode : Obligations.DecodeThenEncode := by
  unfold Obligations.DecodeThenEncode
  intro s hs
  have hlong : ¬ s.length < 20 := by omega
  refine ⟨⟨ipFields s, if_neg hlong, encodeIp_ipFields hs⟩, tcpFields s, if_neg hlong, encodeTcp_tcpFields hs, ?_⟩
  rw [encodeTcp_tcpFields hs, set_getD_eq_self_iff (by omega), and_high_eq_self_iff]

end Sys2Proof.Proofs
end

section
/-! PROOFS. The checksum's arithmetic against the letter of R110: the word sum of a byte string as a sum over indices, and how often it is
folded; and what a field at an even offset adds to it (R112). -/

namespace Sys2Proof.Machine

open Sys2Proof.Spec

/-- The word sum reads the bytes below `n` only. -/
theorem wordSum_congr {b c : Nat → Byte} {n : Nat} (h : ∀ k, k < n → b k = c k) : wordSum b n = wordSum c n := by
  refine Finset.sum_congr rfl fun k hk => ?_
  have hword : 2 * k < n := by have := Finset.mem_range.mp hk; omega
  rw [h _ hword]
  split
  · rw [h _ ‹_›]
  · rfl

/-- A single byte is padded on the right (R110 step 1). -/
theorem wordSum_one (b : Nat → Byte) : wordSum b 1 = 256 * (b 0).toNat := by simp [wordSum]

/-- The first word apart from the others. -/
theorem wordSum_add_two (b : Nat → Byte) (n : Nat) :
    wordSum b (n + 2) = 256 * (b 0).toNat + (b 1).toNat + wordSum (fun k => b (k + 2)) n := by
  have hcount : (n + 2 + 1) / 2 = (n + 1) / 2 + 1 := by omega
  have hpartner (k : Nat) : 2 * (k + 1) + 1 < n + 2 ↔ 2 * k + 1 < n := by omega
  unfold wordSum
  rw [hcount, Finset.sum_range_succ', Nat.add_comm]
  refine congrArg₂ (· + ·) ?first ?rest
  case first => simp
  case rest =>
    simp only [hpartner]
    rfl

/-- R110 steps 1 and 2: the word sum of the padded string is the sum over its indices. -/
theorem sumWords_padEven_eq_wordSum : ∀ s : List Byte, sumWords (padEven s) = wordSum (fun k => s.getD k 0) s.length
  | [] => rfl
  | [a] => by
    have hpad : padEven [a] = [a, 0] := rfl
    rw [hpad, sumWords_cons_cons, joinBytes_toNat, List.length_singleton, wordSum_one]
    simp [Nat.mul_comm]
  | a :: b :: s => by
    have hpad : padEven (a :: b :: s) = a :: b :: padEven s := padEven_append [a, b] s (by simp)
    rw [hpad, sumWords_cons_cons, joinBytes_toNat, sumWords_padEven_eq_wordSum s, List.length_cons, List.length_cons,
      wordSum_add_two, Nat.mul_comm a.toNat]
    rfl

/-- A fold that is due lowers the sum. -/
theorem fold_lt {sum : Nat} (h : 0xFFFF < sum) : fold sum < sum := by unfold fold; omega

/-- R110 step 3: repeated while the sum exceeds 0xFFFF, and no longer, folding ends in the folded value. -/
theorem exists_iterate_fold_eq_folded (sum : Nat) :
    ∃ k, (∀ j, j < k → 0xFFFF < fold^[j] sum) ∧ fold^[k] sum = folded sum := by
  induction sum using Nat.strong_induction_on with
  | h sum ih =>
    rcases Nat.lt_or_ge 0xFFFF sum with hdue | hdone
    · obtain ⟨k, hbefore, hend⟩ := ih (fold sum) (fold_lt hdue)
      refine ⟨k + 1, fun j hj => ?_, ?_⟩
      · cases j with
        | zero => exact hdue
        | succ j => exact hbefore j (by omega)
      · exact hend.trans (folded_fold sum)
    · exact ⟨0, fun j hj => absurd hj j.not_lt_zero, (folded_of_le hdone).symm⟩

/-- The checksum of a byte string, by the letter of R110, of any bytes that agree with it. -/
theorem isChecksum_checksum {s : List Byte} {b : Nat → Byte} (h : ∀ k, k < s.length → s.getD k 0 = b k) :
    IsChecksum b s.length (checksum s) := by
  have hsum : sumWords (padEven s) = wordSum b s.length := (sumWords_padEven_eq_wordSum s).trans (wordSum_congr h)
  obtain ⟨k, hbefore, hend⟩ := exists_iterate_fold_eq_folded (wordSum b s.length)
  refine ⟨k, hbefore, ?_, ?_⟩
  · rw [hend]
    exact folded_le _
  · rw [hend, checksum_toNat, hsum]

/-- A 16-bit field at an even offset is one of the words summed. -/
theorem sumWords_padEven_field {pre : List Byte} (hpre : pre.length % 2 = 0) (v : Half) (post : List Byte) :
    sumWords (padEven (pre ++ be16 v ++ post)) = sumWords pre + sumWords (padEven post) + v.toNat := by
  have heven : (pre ++ be16 v).length % 2 = 0 := by rw [List.length_append, length_be16]; omega
  rw [padEven_append _ _ heven, sumWords_append _ _ heven, sumWords_append _ _ hpre, sumWords_be16]
  omega

/-- A sum and the complement of its folded value together fold to 0xFFFF. -/
theorem folded_add_complement (sum : Nat) : folded (sum + (0xFFFF - folded sum)) = 0xFFFF := by
  unfold folded
  split <;> split <;> omega

end Sys2Proof.Machine

namespace Sys2Proof.Proofs

open Sys2Proof.Machine

/-- Settles O52: the model folds with fuel, and what it reaches is where the folds of R110 end. -/
theorem checksumFollowsTheFourSteps : Obligations.ChecksumFollowsTheFourSteps := by
  unfold Obligations.ChecksumFollowsTheFourSteps
  exact fun s => isChecksum_checksum fun _ _ => rfl

/-- Settles O54: the field adds the complement of the folded sum to the sum, so that it folds to 0xFFFF. -/
theorem checksumVerifiesItself : Obligations.ChecksumVerifiesItself := by
  unfold Obligations.ChecksumVerifiesItself
  intro pre post hpre
  have hzero : ([0, 0] : List Byte) = be16 0 := rfl
  have hfield : (checksum (pre ++ [0, 0] ++ post)).toNat = 0xFFFF - folded (sumWords pre + sumWords (padEven post)) := by
    rw [checksum_toNat, hzero, sumWords_padEven_field hpre]
    rfl
  apply BitVec.eq_of_toNat_eq
  rw [checksum_toNat, sumWords_padEven_field hpre, hfield, folded_add_complement]
  rfl

end Sys2Proof.Proofs
end

section
/-! PROOFS. The commands of the checksum unit, by their outcomes (R113, R115). -/

namespace Sys2Proof.Machine

open Sys2Proof.Spec

/-- `CSUM` where its bytes lie inside `BUF`. -/
theorem Ctx.csum_of_fits {p : Params} {x : Ctx} (h : x.argOff.toNat + x.argLen.toNat ≤ p.bufCap) :
    x.csum p = { x with resCsum := checksum x.operand, cc := .ok } := by
  rw [Ctx.csum, Ctx.ite_outside, if_neg (by omega)]
  rfl

/-- `CSUM` where they do not. -/
theorem Ctx.csum_of_not_fits {p : Params} {x : Ctx} (h : p.bufCap < x.argOff.toNat + x.argLen.toNat) :
    x.csum p = { x with cc := .range } := by
  rw [Ctx.csum, Ctx.ite_outside, if_pos h]
  rfl

/-- The checksum of a command's input is that of the bytes of `BUF` from `ARG_OFF` on. -/
theorem Ctx.isChecksum_operand (x : Ctx) :
    IsChecksum (fun k => x.bufByte (x.argOff.toNat + k)) x.argLen.toNat (checksum x.operand) := by
  rw [← x.length_operand]
  exact isChecksum_checksum fun k hk => x.getD_memRead _ (x.length_operand ▸ hk)

/-- The pseudo-header is the number of R66. -/
theorem beNat_pseudo (src dst : Word) (proto : Byte) (seglen : Half) :
    beNat (pseudo src dst proto seglen) = pseudoBits src dst proto seglen := by
  simp only [pseudo, pseudoBits, beNat_append, beNat_cons, beNat_nil, beNat_be16, beNat_be32, List.length_cons,
    List.length_nil, length_be16, length_be32, BitVec.ofNat_eq_ofNat, BitVec.toNat_zero]
  ring

end Sys2Proof.Machine

namespace Sys2Proof.Proofs

open Sys2Proof.Machine

/-- Settles O10: the input of the command is what `BUF` holds from `ARG_OFF` on, and the result its checksum. -/
theorem csumSumsTheBuffer : Obligations.CsumSumsTheBuffer := by
  unfold Obligations.CsumSumsTheBuffer
  refine ⟨rfl, fun s x hx => ?_⟩
  have hexec : exec .csum s = .next (Spec.withCur s (x.csum s.par)) := exec_eq_withCur hx .csum
  constructor
  · intro hfits
    exact ⟨checksum x.operand, by rw [hexec, Ctx.csum_of_fits hfits], x.isChecksum_operand⟩
  · intro hrange
    rw [hexec, Ctx.csum_of_not_fits hrange]

/-- Settles O11: the effect is to put the pseudo-header, which is the number of R66, at `ARG_OFF`. -/
theorem pshWritesThePseudoHeader : Obligations.PshWritesThePseudoHeader := by
  unfold Obligations.PshWritesThePseudoHeader
  exact ⟨rfl, fun s x hx => exec_of_emit hx rfl (beNat_pseudo x.phSrc x.phDst x.phProto x.phLen)⟩

end Sys2Proof.Proofs
end

section
/-! PROOFS. The packet factory: what `FINIT` and `GEN` do in each outcome (R126, R128), the bytes of the packet made and of what its
checksum is over, and that the packet verifies (R130, R131). -/

namespace Sys2Proof.Machine

open Sys2Proof.Spec

/-- The checksum a successful `GEN` puts into `F_TCP_CSUM` (R128 step 4). -/
def Ctx.genCsum (p : Params) (x : Ctx) : Half := genChecksum p x.fIp x.fTcp x.operand

/-- The packet a successful `GEN` makes (R128 steps 5 to 8). -/
def Ctx.genBytes (p : Params) (x : Ctx) : List Byte :=
  encodeIp x.fIp ++ encodeTcp { x.fTcp with csum := x.genCsum p } ++ x.operand

@[simp] theorem Ctx.length_genBytes (p : Params) (x : Ctx) : (x.genBytes p).length = 40 + x.argLen.toNat := by
  simp only [Ctx.genBytes, List.length_append, length_encodeIp, length_encodeTcp, Ctx.length_operand]

/-- `PKT_LEN` is wide enough for the longest packet (R129(c)). -/
theorem toNat_packetLength {n : Nat} (h : n ≤ 65495) : (BitVec.ofNat 16 (40 + n)).toNat = 40 + n := by
  rw [BitVec.toNat_ofNat]
  omega

/-! ### The outcomes of `GEN` -/

/-- `GEN` without bank `F` loaded. -/
theorem Ctx.gen_of_not_fvalid {p : Params} {x : Ctx} (hv : x.fvalid = false) : x.gen p = { x with cc := .notInit } := by
  rw [Ctx.gen, if_pos hv]
  rfl

/-- `GEN` of a payload that does not lie inside `BUF` or is too long. -/
theorem Ctx.gen_of_range {p : Params} {x : Ctx} (hv : x.fvalid = true)
    (h : p.bufCap < x.argOff.toNat + x.argLen.toNat ∨ 65495 < x.argLen.toNat) : x.gen p = { x with cc := .range } := by
  rw [Ctx.gen, if_neg (by simp [hv]), Ctx.ite_outside]
  split
  case isTrue => rfl
  case isFalse hfits => exact if_pos (h.resolve_left hfits)

/-- `GEN` where every check passes. -/
theorem Ctx.gen_of_fits {p : Params} {x : Ctx} (hv : x.fvalid = true)
    (hfits : x.argOff.toNat + x.argLen.toNat ≤ p.bufCap) (hlong : x.argLen.toNat ≤ 65495) :
    x.gen p = { x with
      fTcp := { x.fTcp with csum := x.genCsum p }
      pkt := Memory.ofBytes 0 (x.genBytes p)
      pktLen := BitVec.ofNat 16 (40 + x.argLen.toNat)
      fill := { x.fill with gens := x.fill.gens + 1 }
      cc := .ok } := by
  have hmax : ¬ maxPayload < x.argLen.toNat := Nat.not_lt.mpr hlong
  rw [Ctx.gen, if_neg (by simp [hv]), Ctx.ite_outside, if_neg (by omega), if_neg hmax, ← x.length_operand]
  rfl

/-! ### What `PKT` holds -/

/-- A byte of a packet that `PKT` holds in whole. -/
theorem Ctx.pktByte_of_pkt_eq {x : Ctx} {s : List Byte} (hpkt : x.pkt = Memory.ofBytes 0 s) (hlen : x.pktLen.toNat = s.length)
    {i : Nat} (hi : i < s.length) : x.pktByte i = s.getD i 0 := by
  rw [Ctx.pktByte, if_pos (hlen ▸ hi), hpkt, Memory.read_ofBytes, if_pos (Nat.zero_le i), Nat.sub_zero]
  simp [hi]

/-- The packet that `PKT` holds in whole. -/
theorem Ctx.packet_of_pkt_eq {x : Ctx} {s : List Byte} (hpkt : x.pkt = Memory.ofBytes 0 s) (hlen : x.pktLen.toNat = s.length) :
    x.packet = s := by
  apply List.ext_getElem (by rw [Ctx.length_packet, hlen])
  intro i _ hi
  simp [Ctx.packet, Ctx.pktByte_of_pkt_eq hpkt hlen hi, hi]

/-- A byte of a header, a TCP header and the payload put together. -/
theorem Ctx.getD_headers_operand (x : Ctx) (b : List Byte) (t : TcpHdr) {i : Nat} (hi : i < b.length + 20 + x.argLen.toNat) :
    (b ++ encodeTcp t ++ x.operand).getD i 0 =
      if i < b.length then byteOf b.length (beNat b) i
      else if i < b.length + 20 then byteOf 20 (tcpBits t) (i - b.length)
      else x.bufByte (x.argOff.toNat + (i - (b.length + 20))) := by
  have hheaders : (b ++ encodeTcp t).length = b.length + 20 := by rw [List.length_append, length_encodeTcp]
  split
  case isTrue h => rw [List.append_assoc, List.getD_append _ _ _ _ h, getD_eq_byteOf_beNat h]
  case isFalse h =>
    split
    case isTrue htcp =>
      have hindex : i - b.length < (encodeTcp t).length := by rw [length_encodeTcp]; omega
      rw [List.getD_append _ _ _ _ (hheaders ▸ htcp), List.getD_append_right _ _ _ _ (by omega),
        getD_eq_byteOf_beNat hindex, beNat_encodeTcp, length_encodeTcp]
    case isFalse htcp =>
      rw [List.getD_append_right _ _ _ _ (by omega), hheaders, Ctx.operand, x.getD_memRead _ (by omega)]

/-- The packet, byte by byte (R128 steps 5 to 8). -/
theorem Ctx.getD_genBytes (p : Params) (x : Ctx) {i : Nat} (hi : i < 40 + x.argLen.toNat) :
    (x.genBytes p).getD i 0 = genOutput x (x.genCsum p) i := by
  rw [Ctx.genBytes, x.getD_headers_operand _ _ hi, beNat_encodeIp]
  rfl

/-- The checksum is over pseudo-header, TCP header with a zero checksum and payload (R128 steps 1 to 4). -/
theorem Ctx.isChecksum_genCsum (p : Params) (x : Ctx) :
    IsChecksum (genInput p x x.argLen.toNat) (32 + x.argLen.toNat) (x.genCsum p) := by
  have hlen (src dst : Word) (proto : Byte) (n : Half) (t : TcpHdr) :
      (pseudo src dst proto n ++ encodeTcp t ++ x.operand).length = 32 + x.argLen.toNat := by
    simp only [List.length_append, length_pseudo, length_encodeTcp, Ctx.length_operand]
  rw [Ctx.genCsum, genChecksum, x.length_operand, ← hlen]
  refine isChecksum_checksum fun i hi => ?_
  rw [hlen] at hi
  rw [x.getD_headers_operand _ _ hi, beNat_pseudo]
  rfl

/-- Bytes 36 and 37 of the packet are the checksum in `F_TCP_CSUM`, big-endian (R63, R130). -/
theorem Ctx.getD_genBytes_csum (p : Params) (x : Ctx) {i : Nat} (hi : i < 2) :
    (x.genBytes p).getD (36 + i) 0 = byteOf 2 (x.genCsum p).toNat i := by
  have hsplit : x.genBytes p =
      encodeIp x.fIp ++ (encodeTcp x.fTcp).take 16 ++ (be16 (x.genCsum p) ++ (be16 x.fTcp.urg ++ x.operand)) := rfl
  have hbefore : (encodeIp x.fIp ++ (encodeTcp x.fTcp).take 16).length = 36 := rfl
  rw [hsplit, List.getD_append_right _ _ _ _ (by omega), hbefore, Nat.add_sub_cancel_left, List.getD_append _ _ _ _ hi,
    getD_eq_byteOf_beNat hi, beNat_be16, length_be16]

/-- R131(f): the packet is a function of bank `F`, `F_TCP_CSUM` apart, the payload and the parameters. -/
theorem Ctx.genBytes_congr {p : Params} {x y : Ctx} {v : Half} (hip : y.fIp = x.fIp) (htcp : y.fTcp = { x.fTcp with csum := v })
    (hpayload : y.operand = x.operand) : y.genBytes p = x.genBytes p := by
  rw [Ctx.genBytes, Ctx.genCsum, hip, htcp, hpayload]
  rfl

/-! ### The context after a successful `GEN` -/

section
variable {p : Params} {x : Ctx} (hv : x.fvalid = true) (hfits : x.argOff.toNat + x.argLen.toNat ≤ p.bufCap)
  (hlong : x.argLen.toNat ≤ 65495)
include hv hfits hlong

/-- `PKT` holds the packet made. -/
theorem Ctx.pkt_gen : (x.gen p).pkt = Memory.ofBytes 0 (x.genBytes p) := by rw [Ctx.gen_of_fits hv hfits hlong]

/-- `PKT_LEN` is the length of the packet made. -/
theorem Ctx.pktLen_gen : (x.gen p).pktLen.toNat = (x.genBytes p).length := by
  rw [Ctx.gen_of_fits hv hfits hlong, Ctx.length_genBytes]
  exact toNat_packetLength hlong

theorem Ctx.packet_gen : (x.gen p).packet = x.genBytes p :=
  Ctx.packet_of_pkt_eq (Ctx.pkt_gen hv hfits hlong) (Ctx.pktLen_gen hv hfits hlong)

theorem Ctx.pktByte_gen {i : Nat} (hi : i < 40 + x.argLen.toNat) : (x.gen p).pktByte i = (x.genBytes p).getD i 0 :=
  Ctx.pktByte_of_pkt_eq (Ctx.pkt_gen hv hfits hlong) (Ctx.pktLen_gen hv hfits hlong) (x.length_genBytes p ▸ hi)

/-- R130: a stale `F_TCP_CSUM` does not show in what `GEN` makes of the context. -/
theorem Ctx.gen_stale_csum (v : Half) : Ctx.gen p { x with fTcp := { x.fTcp with csum := v } } = x.gen p := by
  rw [Ctx.gen_of_fits hv hfits hlong]
  exact Ctx.gen_of_fits hv hfits hlong

end

/-- The checksum field of a TCP header stands behind 16 bytes. -/
theorem encodeTcp_split_csum (t : TcpHdr) (v : Half) :
    encodeTcp { t with csum := v } = (encodeTcp t).take 16 ++ be16 v ++ be16 t.urg := rfl

/-- R131(e): pseudo-header and segment verify, since the checksum was taken with its field zero, which is at an even offset (R112). -/
theorem checksum_of_genChecksum (p : Params) (ip : IpHdr) (t : TcpHdr) (payload : List Byte) :
    checksum (pseudo ip.src ip.dst p.protoTcp (BitVec.ofNat 16 (20 + payload.length)) ++
      (encodeTcp { t with csum := genChecksum p ip t payload } ++ payload)) = 0 := by
  have hzero : be16 0 = ([0, 0] : List Byte) := rfl
  have hverify := Proofs.checksumVerifiesItself
    (pseudo ip.src ip.dst p.protoTcp (BitVec.ofNat 16 (20 + payload.length)) ++ (encodeTcp t).take 16)
    (be16 t.urg ++ payload) (by simp)
  simpa only [genChecksum, encodeTcp_split_csum, hzero, List.append_assoc] using hverify

end Sys2Proof.Machine

namespace Sys2Proof.Proofs

open Sys2Proof.Machine Sys2Proof.Spec

/-- Settles O12: the effect of `FINIT` is to load bank `F`, with no check before it. -/
theorem finitLoadsTheFactory : Obligations.FinitLoadsTheFactory := by
  unfold Obligations.FinitLoadsTheFactory
  exact ⟨rfl, fun s x hx => exec_eq_withCur hx .finit⟩

/-- Settles O13: the outcomes of `GEN`, with the packet and what is summed read byte by byte. -/
theorem genBuildsThePacket : Obligations.GenBuildsThePacket := by
  unfold Obligations.GenBuildsThePacket
  refine ⟨rfl, fun s x hx => ?_⟩
  have hexec : exec .gen s = .next (withCur s (x.gen s.par)) := exec_eq_withCur hx .gen
  refine ⟨fun hv hfits hlong => ?ok, fun hv => ?notInit, fun hv h => ?range⟩
  case ok =>
    refine ⟨x.genCsum s.par, Memory.ofBytes 0 (x.genBytes s.par), x.isChecksum_genCsum s.par, ?_, fun i hi => ?_⟩
    · rw [hexec, Ctx.gen_of_fits hv hfits hlong]
    · have hlen := (toNat_packetLength hlong).trans (x.length_genBytes s.par).symm
      rw [Ctx.pktByte_of_pkt_eq rfl hlen (x.length_genBytes s.par ▸ hi), x.getD_genBytes s.par hi]
  case notInit => rw [hexec, Ctx.gen_of_not_fvalid hv]
  case range => rw [hexec, Ctx.gen_of_range hv h]

/-- Settles O56: the packet is the two headers and the payload, the checksum in it makes pseudo-header and segment verify, and nothing
but the inputs named enters it. -/
theorem generatedPacketVerifies : Obligations.GeneratedPacketVerifies := by
  unfold Obligations.GeneratedPacketVerifies
  intro s x hx hv hfits hlong
  have hpacket : (x.gen s.par).packet = x.genBytes s.par := Ctx.packet_gen hv hfits hlong
  have hcsum : (x.gen s.par).fTcp.csum = x.genCsum s.par := by rw [Ctx.gen_of_fits hv hfits hlong]
  refine ⟨x.gen s.par, exec_eq_withCur hx .gen, by rw [Ctx.gen_of_fits hv hfits hlong], ?_⟩
  rw [hpacket, hcsum]
  refine ⟨x.length_genBytes s.par, rfl, rfl, rfl, ?verifies, ?function⟩
  case verifies =>
    rw [← x.length_operand]
    exact checksum_of_genChecksum s.par x.fIp x.fTcp x.operand
  case function =>
    intro s' x' v hpar hx' hv' hfits' hip htcp hpayload
    have hlen : x'.argLen.toNat = x.argLen.toNat := by simpa using congrArg List.length hpayload
    have hpacket' := Ctx.packet_gen hv' hfits' (hlen ▸ hlong)
    refine ⟨x'.gen s'.par, exec_eq_withCur hx' .gen, ?_⟩
    rw [hpacket', hpar, Ctx.genBytes_congr hip htcp hpayload]

/-- Settles O57: both runs make the same context, whose checksum is that of R128 step 4, and the packet holds it. -/
theorem genLeavesItsChecksum : Obligations.GenLeavesItsChecksum := by
  unfold Obligations.GenLeavesItsChecksum
  intro s x v hx hv hfits hlong
  have hstale : exec .gen (withCur s { x with fTcp := { x.fTcp with csum := v } }) = .next (withCur s (x.gen s.par)) := by
    rw [exec_eq_withCur (ctx_withCur hx _), withCur_withCur, ← Ctx.gen_stale_csum hv hfits hlong v]
    rfl
  refine ⟨x.gen s.par, x.genCsum s.par, exec_eq_withCur hx .gen, hstale, x.isChecksum_genCsum s.par, ?register, ?byte36,
    ?byte37, ?frame⟩
  case register =>
    rw [Ctx.gen_of_fits hv hfits hlong]
    simp [registerFile, fRows]
  case byte36 => rw [Ctx.pktByte_gen hv hfits hlong (by omega), x.getD_genBytes_csum s.par (by decide : 0 < 2)]
  case byte37 => rw [Ctx.pktByte_gen hv hfits hlong (by omega), x.getD_genBytes_csum s.par (by decide : 1 < 2)]
  case frame => rw [Ctx.gen_of_fits hv hfits hlong]

end Sys2Proof.Proofs
end

section
/-! PROOFS. The classifier by its outcomes (R140, R143), and the command `ICLS` (R142). -/

namespace Sys2Proof.Machine

/-! ### The outcomes of `classify` -/

section
variable {p : Params} {d : List Byte}

/-- A datagram too short for the IP header, or an ICMP one too short for type and code. -/
theorem classify_of_short (h : d.length < 20 ∨ (byteAt d 9 = p.protoIcmp ∧ d.length < 22)) : classify p d = none := by
  unfold classify
  split
  case isTrue => rfl
  case isFalse hlong =>
    obtain ⟨hicmp, hshort⟩ := h.resolve_left hlong
    rw [if_neg (not_not_intro hicmp), if_pos hshort]

/-- Another protocol than ICMP: bytes 20 and 21 are not looked at. -/
theorem classify_of_other_proto (hlong : 20 ≤ d.length) (hproto : byteAt d 9 ≠ p.protoIcmp) :
    classify p d = some .notApplicable := by
  rw [classify, if_neg (by omega), if_pos hproto]

/-- An ICMP datagram with its type and code is classified by them alone. -/
theorem classify_of_icmp (hlong : 22 ≤ d.length) (hicmp : byteAt d 9 = p.protoIcmp) :
    classify p d =
      some (if byteAt d 20 = destinationUnreachable ∧ byteAt d 21 ∈ filteringCodes then .filtered else .error) := by
  rw [classify, if_neg (by omega), if_neg (not_not_intro hicmp), if_neg (by omega)]
  by_cases htype : byteAt d 20 = destinationUnreachable
  · by_cases hcode : byteAt d 21 ∈ filteringCodes <;> simp [htype, hcode]
  · simp [htype]

end

/-- The type byte as the number of R140. -/
theorem eq_destinationUnreachable_iff {b : Byte} : b = destinationUnreachable ↔ b.toNat = 3 := BitVec.toNat_inj.symm

/-- The code byte as a number of the set of R143. -/
theorem mem_filteringCodes_iff {b : Byte} : b ∈ filteringCodes ↔ b.toNat ∈ [1, 2, 3, 9, 10, 13] :=
  (List.mem_map_of_injective (f := BitVec.toNat) fun _ _ => BitVec.eq_of_toNat_eq).symm

/-! ### The outcomes of `ICLS` -/

/-- A byte of a command's input is the byte of `BUF` as far behind `ARG_OFF`. -/
theorem Ctx.byteAt_operand (x : Ctx) {k : Nat} (hk : k < x.argLen.toNat) :
    byteAt x.operand k = x.bufByte (x.argOff.toNat + k) := x.getD_memRead _ hk

section
variable {p : Params} {x : Ctx}

/-- `ICLS` where its bytes do not lie inside `BUF`. -/
theorem Ctx.icls_of_not_fits (h : p.bufCap < x.argOff.toNat + x.argLen.toNat) : x.icls p = { x with cc := .range } := by
  rw [Ctx.icls, Ctx.ite_outside, if_pos h]
  rfl

/-- `ICLS` of a datagram that is not classified. -/
theorem Ctx.icls_of_classify_none (hfits : x.argOff.toNat + x.argLen.toNat ≤ p.bufCap)
    (h : classify p x.operand = none) : x.icls p = { x with cc := .malformed } := by
  rw [Ctx.icls, Ctx.ite_outside, if_neg (by omega), h]
  rfl

/-- `ICLS` of a datagram that is. -/
theorem Ctx.icls_of_classify_some (hfits : x.argOff.toNat + x.argLen.toNat ≤ p.bufCap) {r : Classification}
    (h : classify p x.operand = some r) : x.icls p = { x with resCls := r.code, cc := .ok } := by
  rw [Ctx.icls, Ctx.ite_outside, if_neg (by omega), h]
  rfl

/-- The protocol byte of a command's input, read in `BUF`. -/
theorem Ctx.proto_operand_iff (h : 20 ≤ x.argLen.toNat) :
    byteAt x.operand 9 = p.protoIcmp ↔ (x.bufByte (x.argOff.toNat + 9)).toNat = p.protoIcmp.toNat := by
  rw [x.byteAt_operand (by omega), BitVec.toNat_inj]

/-- Type and code of a command's input, read in `BUF`. -/
theorem Ctx.filtered_operand_iff (h : 22 ≤ x.argLen.toNat) :
    (byteAt x.operand 20 = destinationUnreachable ∧ byteAt x.operand 21 ∈ filteringCodes) ↔
      (x.bufByte (x.argOff.toNat + 20)).toNat = 3 ∧
        (x.bufByte (x.argOff.toNat + 21)).toNat ∈ [1, 2, 3, 9, 10, 13] := by
  rw [x.byteAt_operand (by omega), x.byteAt_operand (by omega), eq_destinationUnreachable_iff, mem_filteringCodes_iff]

end

end Sys2Proof.Machine

namespace Sys2Proof.Proofs

open Sys2Proof.Machine

/-- Settles O14: each clause is one outcome of the classifier, its bytes read in `BUF`. -/
theorem iclsClassifiesTheDatagram : Obligations.IclsClassifiesTheDatagram := by
  unfold Obligations.IclsClassifiesTheDatagram
  refine ⟨rfl, fun s x hx => ?_⟩
  have hexec : exec .icls s = .next (Spec.withCur s (x.icls s.par)) := exec_eq_withCur hx .icls
  have hlen : x.operand.length = x.argLen.toNat := x.length_operand
  rw [hexec]
  refine ⟨fun hrange => ?range, fun hfits hshort => ?malformed, fun hfits hlong hproto => ?notApplicable,
    fun hfits hlong hicmp hkind => ?error, fun hfits hlong hicmp htype hcode => ?filtered⟩
  case range => rw [Ctx.icls_of_not_fits hrange]
  case malformed =>
    have hclass : classify s.par x.operand = none := by
      apply classify_of_short
      rw [hlen]
      rcases Nat.lt_or_ge x.argLen.toNat 20 with hip | hip
      · exact .inl hip
      · exact hshort.imp_right (And.imp_left (Ctx.proto_operand_iff hip).mpr)
    rw [Ctx.icls_of_classify_none hfits hclass]
  case notApplicable =>
    have hclass := classify_of_other_proto (hlen ▸ hlong) ((Ctx.proto_operand_iff hlong).not.mpr hproto)
    rw [Ctx.icls_of_classify_some hfits hclass]
    rfl
  case error =>
    have hclass := classify_of_icmp (hlen ▸ hlong) ((Ctx.proto_operand_iff (by omega)).mpr hicmp)
    rw [if_neg ((Ctx.filtered_operand_iff hlong).not.mpr (not_and_or.mpr hkind))] at hclass
    rw [Ctx.icls_of_classify_some hfits hclass]
    rfl
  case filtered =>
    have hclass := classify_of_icmp (hlen ▸ hlong) ((Ctx.proto_operand_iff (by omega)).mpr hicmp)
    rw [if_pos ((Ctx.filtered_operand_iff hlong).mpr ⟨htype, hcode⟩)] at hclass
    rw [Ctx.icls_of_classify_some hfits hclass]
    rfl

end Sys2Proof.Proofs
end

section
/-! PROOFS. The transmit commands by their outcomes: `NOP` (R150), `TXOPEN` (R151) and `TX` with its checks in order (R152). -/

namespace Sys2Proof.Machine

/-! ### The outcomes of `TXOPEN` -/

theorem Ctx.txopen_of_priv (x : Ctx) : x.txopen true = { x with txen := true, cc := .ok } := rfl

theorem Ctx.txopen_of_not_priv (x : Ctx) : x.txopen false = { x with fatal := true, cc := .noPriv } := rfl

/-! ### The outcomes of `TX` -/

/-- `PKT_LEN` read as a number says whether there is a packet. -/
theorem Ctx.pktLen_eq_zero_iff {x : Ctx} : x.pktLen = 0 ↔ x.pktLen.toNat = 0 := BitVec.toNat_inj.symm

theorem Ctx.tx_of_not_priv (x : Ctx) : x.tx false = { x with fatal := true, cc := .noPriv } := rfl

/-- `TX` on a path that is not open. -/
theorem Ctx.tx_of_not_open {x : Ctx} (hopen : x.txen = false) : x.tx true = { x with cc := .txNotOpen } := by
  rw [Ctx.tx, if_neg nofun, if_pos hopen]
  rfl

section
variable {x : Ctx} (hopen : x.txen = true)
include hopen

/-- `TX` without a packet. -/
theorem Ctx.tx_of_no_packet (hlen : x.pktLen.toNat = 0) : x.tx true = { x with cc := .noPkt } := by
  rw [Ctx.tx, if_neg nofun, if_neg (by simp [hopen]), if_pos (Ctx.pktLen_eq_zero_iff.mpr hlen)]
  rfl

/-- `TX` while an earlier packet waits for the arbiter. -/
theorem Ctx.tx_of_busy (hlen : x.pktLen.toNat ≠ 0) (hslot : x.slot ≠ none) : x.tx true = { x with cc := .txBusy } := by
  rw [Ctx.tx, if_neg nofun, if_neg (by simp [hopen]), if_neg (Ctx.pktLen_eq_zero_iff.not.mpr hlen),
    if_pos (Option.isSome_iff_ne_none.mpr hslot)]
  rfl

/-- `TX` with every check passed. -/
theorem Ctx.tx_of_ready (hlen : x.pktLen.toNat ≠ 0) (hslot : x.slot = none) :
    x.tx true = { x with slot := some { dst := x.txDst, len := x.pktLen, bytes := x.packet }, cc := .ok } := by
  rw [Ctx.tx, if_neg nofun, if_neg (by simp [hopen]), if_neg (Ctx.pktLen_eq_zero_iff.not.mpr hlen),
    if_neg (by simp [hslot])]
  rfl

end

end Sys2Proof.Machine

namespace Sys2Proof.Proofs

open Sys2Proof.Machine

/-- Settles O5: the effect of `NOP` is to complete `OK`, with no check before it. -/
theorem nopOnlyClearsTheCode : Obligations.NopOnlyClearsTheCode := by
  unfold Obligations.NopOnlyClearsTheCode
  exact ⟨rfl, fun s x hx => exec_eq_withCur hx .nop⟩

/-- Settles O15: each clause is one outcome of `TXOPEN`. -/
theorem txopenNeedsThePrivilege : Obligations.TxopenNeedsThePrivilege := by
  unfold Obligations.TxopenNeedsThePrivilege
  refine ⟨rfl, fun s x hx => ?_⟩
  have hexec : exec .txopen s = .next (Spec.withCur s (x.txopen s.priv)) := exec_eq_withCur hx .txopen
  rw [hexec]
  refine ⟨fun hpriv => ?granted, fun hpriv => ?withheld⟩
  case granted => rw [hpriv, Ctx.txopen_of_priv]
  case withheld => rw [hpriv, Ctx.txopen_of_not_priv]

/-- Settles O16: each clause is one outcome of `TX`, and the bytes it puts into the slot are those of `PKT`. -/
theorem txCopiesThePacketIntoTheSlot : Obligations.TxCopiesThePacketIntoTheSlot := by
  unfold Obligations.TxCopiesThePacketIntoTheSlot
  refine ⟨rfl, fun s x hx => ?_⟩
  have hexec : exec .tx s = .next (Spec.withCur s (x.tx s.priv)) := exec_eq_withCur hx .tx
  rw [hexec]
  refine ⟨fun hpriv hopen hlen hslot => ?sent, fun hpriv => ?noPriv, fun hpriv hopen => ?txNotOpen,
    fun hpriv hopen hlen => ?noPkt, fun hpriv hopen hlen hslot => ?txBusy⟩
  case sent =>
    refine ⟨x.packet, ?_, x.length_packet, fun i hi => ?_⟩
    · rw [hpriv, Ctx.tx_of_ready hopen hlen hslot]
    · rw [Ctx.getElem?_packet, if_pos hi]
  case noPriv => rw [hpriv, Ctx.tx_of_not_priv]
  case txNotOpen => rw [hpriv, Ctx.tx_of_not_open hopen]
  case noPkt => rw [hpriv, Ctx.tx_of_no_packet hopen hlen]
  case txBusy => rw [hpriv, Ctx.tx_of_busy hopen hlen hslot]

end Sys2Proof.Proofs
end

section
/-! PROOFS. How a command word completes: what a failed one leaves unchanged (R171), and which of its checks gives the code (R172). -/

namespace Sys2Proof.Machine

open Sys2Proof.Spec

/-! ### The effect of a command word -/

/-- The effect of a legal word is its command's. -/
theorem wordEffect_of_ok {w : Word} {i : Instr} (h : decode w = .ok i) (p : Params) (priv : Bool) (x : Ctx) :
    wordEffect p priv w x = effect p priv i x := by
  rw [wordEffect, h]

/-- The effect of an illegal word is to raise `ILLEGAL` (R71). -/
theorem wordEffect_of_ne_ok {w : Word} (h : ∀ i, decode w ≠ .ok i) (p : Params) (priv : Bool) (x : Ctx) :
    wordEffect p priv w x = x.raise .illegal := by
  cases hw : decode w with
  | ok i => exact absurd hw (h i)
  | error e => rw [wordEffect, hw]

/-- A word from 12 on is illegal, since every command's word is below (R73). -/
theorem decode_ne_ok_of_le {w : Word} (h : 12 ≤ w.toNat) (i : Instr) : decode w ≠ .ok i := by
  intro hw
  obtain rfl := decode_eq_ok_iff_eq_encode.mp hw
  cases i <;> exact absurd h (by decide)

/-- How a word that does not complete `OK` completes: it raises its code, or `NOPRIV`, which sets `FATAL` besides. -/
theorem wordEffect_of_cc_ne_ok {p : Params} {priv : Bool} {w : Word} {x : Ctx} (h : (wordEffect p priv w x).cc ≠ .ok) :
    (∃ cc, cc ≠ .noPriv ∧ wordEffect p priv w x = x.raise cc) ∨ wordEffect p priv w x = x.raiseNoPriv := by
  by_cases hlegal : ∃ i, decode w = .ok i
  · obtain ⟨i, hi⟩ := hlegal
    rw [wordEffect_of_ok hi] at h ⊢
    rcases effect_cases p priv i x with ⟨cc, -, hcc, heff⟩ | ⟨-, -, heff⟩ | ⟨y, heff, -⟩
    · exact .inl ⟨cc, hcc, heff⟩
    · exact .inr heff
    · exact absurd (heff ▸ y.complete_cc .ok) h
  · exact .inl ⟨.illegal, nofun, wordEffect_of_ne_ok (not_exists.mp hlegal) p priv x⟩

/-- The step of a write to `CMD` (R17): the access is taken and answered, and the word takes effect on the context that holds it. -/
theorem step_write_cmd_eq_next {s : State} {c : Nat} {w : Word} {rest : List Input} {x : Ctx}
    (hi : s.inputs = .host c (.write 32 0x130 w) :: rest) (hx : s.ctxs[c]? = some x) :
    step s = .next { s with
      inputs := rest
      cur := c
      resp := some .done
      ctxs := s.ctxs.set c (wordEffect s.par s.priv w { x with cmd := w }) } := by
  rw [step_of_host hi hx, accessEffect_write_cmd]

/-! ### The code of each command -/

/-- `classify` fails on length alone: no room for the IP header, or for the type and code of an ICMP datagram (R140). -/
theorem classify_eq_none_iff {p : Params} {d : List Byte} :
    classify p d = none ↔ d.length < 20 ∨ (byteAt d 9 = p.protoIcmp ∧ d.length < 22) := by
  refine ⟨fun h => ?_, classify_of_short⟩
  by_contra! hlong
  obtain ⟨hip, hicmp⟩ := hlong
  by_cases hproto : byteAt d 9 = p.protoIcmp
  · rw [classify_of_icmp (hicmp hproto) hproto] at h
    cases h
  · rw [classify_of_other_proto hip hproto] at h
    cases h

section
variable (p : Params) (x : Ctx)

/-- `classify` of a command's input fails on `ARG_LEN` alone, the protocol byte read in `BUF`. -/
theorem Ctx.classify_operand_eq_none_iff :
    classify p x.operand = none ↔
      x.argLen.toNat < 20 ∨ (x.bufByte (x.argOff.toNat + 9) = p.protoIcmp ∧ x.argLen.toNat < 22) := by
  rw [classify_eq_none_iff, x.length_operand]
  by_cases hip : x.argLen.toNat < 20
  · simp only [hip, true_or]
  · rw [x.byteAt_operand (by omega)]

/-- The code of a command that puts `n` bytes at `ARG_OFF` (R46). -/
theorem Ctx.cc_emit {b : List Byte} {n : Nat} (hb : b.length = n) :
    (x.emit p b).cc = if p.bufCap < x.argOff.toNat + n then .range else .ok := by
  subst hb
  rw [Ctx.emit, Ctx.ite_outside]
  split <;> rfl

/-- The code of a command that loads a header (R95, R97). -/
theorem Ctx.cc_ite_load (y : Ctx) :
    Ctx.cc (if x.outside p x.argLen.toNat then x.raise .range
      else if x.argLen.toNat < 20 then x.raise .malformed else y.complete .ok) =
    if p.bufCap < x.argOff.toNat + x.argLen.toNat then .range else if x.argLen.toNat < 20 then .malformed else .ok := by
  rw [Ctx.ite_outside]
  split_ifs <;> rfl

theorem Ctx.cc_csum : (x.csum p).cc = if p.bufCap < x.argOff.toNat + x.argLen.toNat then .range else .ok := by
  rw [Ctx.csum, Ctx.ite_outside]
  split <;> rfl

theorem Ctx.cc_gen :
    (x.gen p).cc = if x.fvalid = false then .notInit
      else if p.bufCap < x.argOff.toNat + x.argLen.toNat then .range
      else if 65495 < x.argLen.toNat then .range else .ok := by
  rw [Ctx.gen, Ctx.ite_outside, maxPayload]
  split_ifs <;> rfl

theorem Ctx.cc_icls :
    (x.icls p).cc = if p.bufCap < x.argOff.toNat + x.argLen.toNat then .range
      else if x.argLen.toNat < 20 then .malformed
      else if x.bufByte (x.argOff.toNat + 9) = p.protoIcmp ∧ x.argLen.toNat < 22 then .malformed else .ok := by
  have hnone := x.classify_operand_eq_none_iff p
  rw [Ctx.icls, Ctx.ite_outside]
  split_ifs with hrange hshort hicmp
  · rfl
  · rw [hnone.mpr (.inl hshort)]
    rfl
  · rw [hnone.mpr (.inr hicmp)]
    rfl
  · cases hclass : classify p x.operand with
    | some r => rfl
    | none => exact absurd (hnone.mp hclass) (not_or.mpr ⟨hshort, hicmp⟩)

theorem Ctx.cc_txopen (priv : Bool) : (x.txopen priv).cc = if priv = false then .noPriv else .ok := by
  rw [Ctx.txopen]
  split <;> rfl

theorem Ctx.cc_tx (priv : Bool) :
    (x.tx priv).cc = if priv = false then .noPriv
      else if x.txen = false then .txNotOpen
      else if x.pktLen.toNat = 0 then .noPkt
      else if x.slot ≠ none then .txBusy else .ok := by
  simp only [Ctx.tx, Ctx.pktLen_eq_zero_iff, Option.isSome_iff_ne_none]
  split_ifs <;> rfl

end

/-- R172 for a legal word: each command's checks are those of the common order that concern it. -/
theorem cc_effect (p : Params) (priv : Bool) (i : Instr) (x : Ctx) : (effect p priv i x).cc = codeOf p priv x i := by
  cases i with
  | nop => rfl
  | finit => simp [codeOf, bufferLength, effect, Ctx.finit]
  | encIp => simp [codeOf, bufferLength, effect, Ctx.encIp, x.cc_emit p (length_encodeIp x.hIp)]
  | encTcp => simp [codeOf, bufferLength, effect, Ctx.encTcp, x.cc_emit p (length_encodeTcp x.hTcp)]
  | psh => simp [codeOf, bufferLength, effect, Ctx.psh, x.cc_emit p (length_pseudo x.phSrc x.phDst x.phProto x.phLen)]
  | decIp | decTcp => simp [codeOf, bufferLength, effect, Ctx.decIp, Ctx.decTcp, Ctx.cc_ite_load]
  | csum => simp [codeOf, bufferLength, effect, Ctx.cc_csum]
  | gen => simp [codeOf, bufferLength, effect, Ctx.cc_gen]
  | icls => simp [codeOf, bufferLength, effect, Ctx.cc_icls]
  | txopen => simp [codeOf, bufferLength, effect, Ctx.cc_txopen]
  | tx => simp [codeOf, bufferLength, effect, Ctx.cc_tx]

/-- No check looks at `CMD` (log entry 14). -/
theorem codeOf_cmd (p : Params) (priv : Bool) (x : Ctx) (w : Word) (i : Instr) :
    codeOf p priv { x with cmd := w } i = codeOf p priv x i := by
  cases i <;> rfl

end Sys2Proof.Machine

namespace Sys2Proof.Proofs

open Sys2Proof.Machine

/-- Settles O17: a word that does not complete `OK` raises a code on the context that holds it in `CMD`. -/
theorem failedCommandChangesNothingElse : Obligations.FailedCommandChangesNothingElse := by
  unfold Obligations.FailedCommandChangesNothingElse
  intro s t c w rest x y hi hx hstep hy hcc
  rw [step_write_cmd_eq_next hi hx] at hstep
  cases hstep
  obtain ⟨hc, -⟩ := List.getElem?_eq_some_iff.mp hx
  obtain rfl : wordEffect s.par s.priv w { x with cmd := w } = y :=
    Option.some.inj ((List.getElem?_set_self hc).symm.trans hy)
  rcases wordEffect_of_cc_ne_ok hcc with ⟨cc, hne, heff⟩ | heff
  · rw [heff]
    exact ⟨rfl, fun _ => rfl, fun h => absurd h hne, rfl⟩
  · rw [heff]
    exact ⟨rfl, fun h => absurd rfl h, fun _ => rfl, rfl⟩

/-- Settles O18: the step leaves the effect of the word, whose code is known for a legal and for an illegal word. -/
theorem theFirstCheckGivesTheCode : Obligations.TheFirstCheckGivesTheCode := by
  unfold Obligations.TheFirstCheckGivesTheCode
  intro s c w rest x hi hx
  obtain ⟨hc, -⟩ := List.getElem?_eq_some_iff.mp hx
  refine ⟨_, _, step_write_cmd_eq_next hi hx, List.getElem?_set_self hc, fun i hw => ?legal, fun hw => ?illegal⟩
  case legal => rw [wordEffect_of_ok hw, cc_effect, codeOf_cmd]
  case illegal => rw [wordEffect_of_ne_ok (decode_ne_ok_of_le hw), Ctx.raise_cc]

end Sys2Proof.Proofs
end

section
/-! PROOFS. Reset (R190, R191): the step it takes, and what the registers of a context hold after it. -/

namespace Sys2Proof.Machine

open Sys2Proof.Spec

/-- A reset input is taken off the list and resets the engine (R190). -/
theorem step_of_reset {s : State} {p : Bool} {rest : List Input} (hi : s.inputs = .reset p :: rest) :
    step s = .next ({ s with inputs := rest }.resetAgain p) := by
  rw [step, hi]
  rfl

/-- Table by table, the rows of a context right after a reset hold 0 (R14 to R18). -/
theorem registerFile_reset (e c : Nat) : ∀ row ∈ registerFile (Ctx.reset e c), row.2.2 = 0 := by
  simp only [registerFile, List.forall_mem_append]
  refine ⟨⟨⟨?bankH, ?bankF⟩, ?operands⟩, ?control⟩
  case bankH => simp [hRows, Ctx.reset, IpHdr.zero, TcpHdr.zero]
  case bankF => simp [fRows, Ctx.reset, IpHdr.zero, TcpHdr.zero]
  case operands => simp [operandRows, Ctx.reset]
  case control => simp [controlRows, statusNumber, codeNumber, Ctx.reset]

/-- R191 for every context of an engine just reset. -/
theorem registerFile_of_mem_resetCtxs {e c n : Nat} {x : Ctx} (h : x ∈ resetCtxs e c n) :
    (∀ row ∈ registerFile x, row.2.2 = 0) ∧ x.slot = none := by
  obtain ⟨d, rfl⟩ := eq_reset_of_mem h
  exact ⟨registerFile_reset e d, rfl⟩

end Sys2Proof.Machine

namespace Sys2Proof.Proofs

open Sys2Proof.Machine

/-- Settles O28: the first reset, with whatever parameters, and every later one leave reset contexts only. -/
theorem resetClearsEveryRegister : Obligations.ResetClearsEveryRegister := by
  unfold Obligations.ResetClearsEveryRegister
  refine ⟨fun par priv n x hx => registerFile_of_mem_resetCtxs hx, fun x hx => registerFile_of_mem_resetCtxs hx,
    fun s p rest hi => ?again⟩
  case again => exact ⟨_, step_of_reset hi, length_resetCtxs _ _ _, fun x hx => registerFile_of_mem_resetCtxs hx⟩

end Sys2Proof.Proofs
end

section
/-! PROOFS. A packet pending in a transmit slot (R200): no command and no access replaces it, and `TX` on it completes `TXBUSY`. -/

namespace Sys2Proof.Machine

/-- The one command that fills the slot is `TX`, and it is done only where the slot is empty (R152). -/
theorem Done.slot_of_pending {par : Params} {priv : Bool} {i : Instr} {x y : Ctx} {p : Slot} (h : Done par priv i x y)
    (hp : x.slot = some p) : y.slot = some p := by
  cases i with
  | nop => obtain rfl := h; exact hp
  | finit => obtain rfl := h; rwa [Ctx.loadFactory_slot]
  | encIp | encTcp | psh => obtain ⟨-, rfl⟩ := h; rwa [Ctx.memWrite_slot]
  | csum | txopen => obtain ⟨-, rfl⟩ := h; exact hp
  | decIp | decTcp => obtain ⟨-, -, rfl⟩ := h; exact hp
  | gen => obtain ⟨-, -, -, rfl⟩ := h; rwa [Ctx.genPacket_slot]
  | icls => obtain ⟨-, r, -, rfl⟩ := h; exact hp
  | tx =>
    obtain ⟨-, -, -, hempty, -⟩ := h
    rw [hempty] at hp
    cases hp

section
variable {x : Ctx} {p : Slot} (hp : x.slot = some p)
include hp

/-- A command leaves a pending packet alone, whether it fails or is done. -/
theorem effect_slot_of_pending (par : Params) (priv : Bool) (i : Instr) : (effect par priv i x).slot = some p := by
  rcases effect_cases par priv i x with ⟨cc, -, -, heff⟩ | ⟨-, -, heff⟩ | ⟨y, heff, hdone⟩
  · rw [heff, Ctx.raise_slot, hp]
  · rw [heff, Ctx.raiseNoPriv_slot, hp]
  · rw [heff, Ctx.complete_slot, hdone.slot_of_pending hp]

/-- A command word, legal or not, leaves a pending packet alone. -/
theorem wordEffect_slot_of_pending (par : Params) (priv : Bool) (w : Word) : (wordEffect par priv w x).slot = some p := by
  by_cases hlegal : ∃ i, decode w = .ok i
  · obtain ⟨i, hi⟩ := hlegal
    rw [wordEffect_of_ok hi, effect_slot_of_pending hp]
  · rw [wordEffect_of_ne_ok (not_exists.mp hlegal), Ctx.raise_slot, hp]

/-- An access at the context's own host port leaves a pending packet alone. -/
theorem accessEffect_slot_of_pending (par : Params) (priv : Bool) (a : Access) :
    (accessEffect par priv a x).1.slot = some p := by
  rcases accessEffect_cases par priv a x with heff | ⟨w, -, heff⟩ | ⟨r, v, -, -, -, heff⟩ | ⟨i, v, -, -, heff⟩
  · rw [heff, hp]
  · rw [heff, wordEffect_slot_of_pending (x := { x with cmd := w }) hp]
  · rw [heff, Ctx.setReg_slot, hp]
  · rw [heff, Ctx.memWrite_slot, hp]

/-- In a good context a packet waits on an open path under privilege, so `TX` gets to its last check (R152). -/
theorem Ctx.tx_of_pending {par : Params} {priv : Bool} (hgood : x.Good par priv) : x.tx priv = { x with cc := .txBusy } := by
  obtain ⟨-, hopen, hlen⟩ := hgood.slotOpen p hp
  rw [hgood.openPriv hopen]
  exact Ctx.tx_of_busy hopen (Ctx.pktLen_eq_zero_iff.not.mp hlen) (by simp [hp])

end

/-- The step of a host access, at whichever port, leaves a packet pending on context `c` alone. -/
theorem slot_of_step_host {s t : State} {c d : Nat} {a : Access} {rest : List Input} {x : Ctx} {p : Slot}
    (hi : s.inputs = .host d a :: rest) (h : step s = .next t) (hx : s.ctxs[c]? = some x) (hp : x.slot = some p) :
    ∃ y, t.ctxs[c]? = some y ∧ y.slot = some p := by
  by_cases hcd : c = d
  · subst hcd
    obtain ⟨t', ht', hctx, -⟩ := step_host_outcome hi hx
    cases h.symm.trans ht'
    exact ⟨_, hctx, accessEffect_slot_of_pending hp s.par s.priv a⟩
  · obtain ⟨-, -, hother⟩ := step_host_frame hi h
    exact ⟨x, (hother c hcd).trans hx, hp⟩

end Sys2Proof.Machine

namespace Sys2Proof.Proofs

open Sys2Proof.Machine

/-- Settles O42: no command but `TX` fills a slot, and on a context with a packet pending it completes `TXBUSY`. -/
theorem pendingPacketIsKept : Obligations.PendingPacketIsKept := by
  unfold Obligations.PendingPacketIsKept
  intro s c x p hgood hx hp
  refine ⟨fun t d a rest hi hstep => slot_of_step_host hi hstep hx hp, ?tx, ?gen, ?finit⟩
  case tx =>
    rintro rfl
    rw [exec_eq_withCur hx, effect, Ctx.tx_of_pending hp (hgood.ctxGood x (List.mem_of_getElem? hx))]
  case gen =>
    rintro rfl
    exact ⟨_, exec_eq_withCur hx .gen, effect_slot_of_pending hp s.par s.priv .gen⟩
  case finit =>
    rintro rfl
    exact ⟨_, exec_eq_withCur hx .finit, effect_slot_of_pending hp s.par s.priv .finit⟩

end Sys2Proof.Proofs
end

section
/-! PROOFS. The decoder's three laws together (R70, R71, R74), and words written out bit by bit. -/

namespace Sys2Proof

/-- The legal words are the numbers up to 11: no upper bit, and an opcode below 12. -/
theorem exists_decode_eq_ok_iff {w : Word} : (∃ i, decode w = .ok i) ↔ w.toNat ≤ 11 := by
  have hw := w.isLt
  have hillegal := decode_ne_ok_iff (w := w)
  simp only [ne_eq, ← not_exists, ← BitVec.toNat_inj, Machine.slice_toNat, BitVec.ofNat_eq_ofNat, BitVec.toNat_ofNat] at hillegal
  rw [← not_iff_not, hillegal]
  omega

end Sys2Proof

namespace Sys2Proof.Proofs

/-- Settles O1: a word decodes to a command exactly when it is the command's encoding, which gives both round trips. -/
theorem decodeAndEncodeAgree : Obligations.DecodeAndEncodeAgree := by
  unfold Obligations.DecodeAndEncodeAgree
  refine ⟨fun i _ => ?_, fun w i h => ?_, fun w => exists_decode_eq_ok_iff⟩
  · exact decode_eq_ok_iff_eq_encode.mpr rfl
  · exact (decode_eq_ok_iff_eq_encode.mp h).symm

/-- Settles O3: the decoder evaluated on each word. -/
theorem someWordsDecode : Obligations.SomeWordsDecode := by
  unfold Obligations.SomeWordsDecode
  exact ⟨rfl, rfl, rfl, rfl, rfl, rfl⟩

end Sys2Proof.Proofs
end

section
/-! PROOFS. The extremes of the checksum (R111): how far two folds bring a sum, and from which sums the two extreme results come. -/

namespace Sys2Proof.Machine

open Sys2Proof.Spec

/-- A word sum is at most 0xFFFF for each word. -/
theorem wordSum_le (b : Nat → Byte) (n : Nat) : wordSum b n ≤ (n + 1) / 2 * 0xFFFF := by
  have hword : ∀ k ∈ Finset.range ((n + 1) / 2),
      256 * (b (2 * k)).toNat + (if 2 * k + 1 < n then (b (2 * k + 1)).toNat else 0) ≤ 0xFFFF := by
    intro k _
    have hhi := (b (2 * k)).isLt
    have hlo := (b (2 * k + 1)).isLt
    split <;> omega
  calc wordSum b n
    _ ≤ (Finset.range ((n + 1) / 2)).card • 0xFFFF := Finset.sum_le_card_nsmul _ _ _ hword
    _ = (n + 1) / 2 * 0xFFFF := by rw [Finset.card_range, smul_eq_mul]

/-- The first fold leaves at most one carry, the second none, of a sum of up to 65536 words. -/
theorem fold_fold_le {sum : Nat} (h : sum ≤ 65536 * 0xFFFF) : fold^[2] sum ≤ 0xFFFF := by
  have htwice : fold^[2] sum = fold (fold sum) := rfl
  rw [htwice]
  unfold fold
  omega

/-- A word sum is zero exactly when every byte is. -/
theorem wordSum_eq_zero_iff {b : Nat → Byte} {n : Nat} : wordSum b n = 0 ↔ ∀ k, k < n → b k = 0 := by
  have hzero (v : Byte) : v = 0 ↔ v.toNat = 0 := BitVec.toNat_inj.symm
  simp only [wordSum, Finset.sum_eq_zero_iff, Finset.mem_range, hzero]
  constructor
  · intro h k hk
    have hword := h (k / 2) (by omega)
    rcases Nat.mod_two_eq_zero_or_one k with heven | hodd
    · rw [show 2 * (k / 2) = k by omega] at hword
      omega
    · rw [show 2 * (k / 2) + 1 = k by omega, if_pos hk] at hword
      omega
  · intro h k hk
    rw [h (2 * k) (by omega)]
    split
    · rw [h _ ‹_›]
      rfl
    · rfl

/-- The bytes of a byte string are zero at every index exactly when they are as members. -/
theorem forall_getD_eq_zero_iff {s : List Byte} : (∀ k, k < s.length → s.getD k 0 = 0) ↔ ∀ b ∈ s, b = 0 := by
  rw [List.forall_mem_iff_getElem]
  exact forall₂_congr fun k hk => by rw [List.getD_eq_getElem s 0 hk]

/-- Folding leaves 0 of 0 only (R111(c)). -/
theorem folded_eq_zero_iff {sum : Nat} : folded sum = 0 ↔ sum = 0 := by unfold folded; split <;> omega

/-- No number of folds changes what is left in the end. -/
theorem folded_iterate_fold (k sum : Nat) : folded (fold^[k] sum) = folded sum := by
  induction k generalizing sum with
  | zero => rfl
  | succ k ih => exact (ih (fold sum)).trans (folded_fold sum)

/-- The folded value is 0xFFFF exactly when the folds come by 0xFFFF, which is also where they end. -/
theorem folded_eq_max_iff {sum : Nat} : folded sum = 0xFFFF ↔ ∃ k, fold^[k] sum = 0xFFFF := by
  constructor
  · intro h
    obtain ⟨k, -, hk⟩ := exists_iterate_fold_eq_folded sum
    exact ⟨k, hk.trans h⟩
  · rintro ⟨k, hk⟩
    rw [← folded_iterate_fold k, hk]
    rfl

/-- The checksum as a number, over the sum of R110. -/
theorem checksum_toNat_eq_wordSum (s : List Byte) :
    (checksum s).toNat = 0xFFFF - folded (wordSum (fun k => s.getD k 0) s.length) := by
  rw [checksum_toNat, sumWords_padEven_eq_wordSum]

end Sys2Proof.Machine

namespace Sys2Proof.Proofs

open Sys2Proof.Machine Sys2Proof.Spec

/-- Settles O53: the checksum complements the folded sum, which is 0 for the sum 0 only and 0xFFFF where the folds come by it. -/
theorem checksumExtremes : Obligations.ChecksumExtremes := by
  unfold Obligations.ChecksumExtremes
  intro s
  have hle := folded_le (wordSum (fun k => s.getD k 0) s.length)
  refine ⟨fun hlen => ?folds, ?allOnes, ?zero⟩
  case folds =>
    refine fold_fold_le ((wordSum_le _ _).trans (Nat.mul_le_mul_right _ ?_))
    omega
  case allOnes =>
    rw [← forall_getD_eq_zero_iff, ← wordSum_eq_zero_iff, ← folded_eq_zero_iff, ← BitVec.toNat_inj, checksum_toNat_eq_wordSum,
      BitVec.toNat_ofNat]
    omega
  case zero =>
    rw [← folded_eq_max_iff, ← BitVec.toNat_inj, checksum_toNat_eq_wordSum, BitVec.toNat_ofNat]
    omega

end Sys2Proof.Proofs
end

section
/-! PROOFS. The host's check of a segment: what `CSUM` reads right after `PSH` wrote in front of it (R116). -/

namespace Sys2Proof.Machine

open Sys2Proof.Spec

/-- Bytes read in one go are the bytes read in two. -/
theorem Ctx.memRead_add (x : Ctx) (a m n : Nat) : x.memRead a (m + n) = x.memRead a m ++ x.memRead (a + m) n := by
  simp [Ctx.memRead, List.range_add, Nat.add_assoc]

/-- A write leaves the bytes behind it alone. -/
theorem Ctx.memRead_memWrite_behind (x : Ctx) (a : Nat) (b : List Byte) (n : Nat) :
    (x.memWrite a b).memRead (a + b.length) n = x.memRead (a + b.length) n := by
  refine List.map_congr_left fun k _ => ?_
  rw [Ctx.bufByte_memWrite, if_neg (by omega)]

/-- A command that puts a byte string at `ARG_OFF`, where it fits: from there on the string is read, then what stood behind it. -/
theorem exists_memRead_add_of_emit {s : State} {x : Ctx} {i : Instr} {b : List Byte} (hx : s.ctxs[s.cur]? = some x)
    (hi : effect s.par s.priv i x = x.emit s.par b) (hfits : x.argOff.toNat + b.length ≤ s.par.bufCap) :
    ∃ y, exec i s = .next (withCur s y) ∧ y.argOff = x.argOff ∧
      ∀ n, y.memRead y.argOff.toNat (b.length + n) = b ++ x.memRead (x.argOff.toNat + b.length) n := by
  refine ⟨_, exec_of_emit_of_fits hx hi hfits, rfl, fun n => ?_⟩
  calc (x.memWrite x.argOff.toNat b).memRead x.argOff.toNat (b.length + n)
    _ = (x.memWrite x.argOff.toNat b).memRead x.argOff.toNat b.length ++
        (x.memWrite x.argOff.toNat b).memRead (x.argOff.toNat + b.length) n := Ctx.memRead_add ..
    _ = b ++ x.memRead (x.argOff.toNat + b.length) n := by rw [Ctx.memRead_memWrite, Ctx.memRead_memWrite_behind]

/-- A command run on a replacement of the context in use: the effect on that replacement. -/
theorem exec_withCur {s : State} {x : Ctx} (hx : s.ctxs[s.cur]? = some x) (i : Instr) (y : Ctx) :
    exec i (withCur s y) = .next (withCur s (effect s.par s.priv i y)) := by
  rw [exec_eq_withCur (ctx_withCur hx y), withCur_withCur]
  rfl

/-- `CSUM` over `m` bytes from `ARG_OFF` on, on a context in which the host has put that number into `ARG_LEN`. -/
theorem exec_csum_of_argLen {s : State} {x y : Ctx} {m : Nat} (hx : s.ctxs[s.cur]? = some x)
    (hfits : y.argOff.toNat + m ≤ s.par.bufCap) :
    exec .csum (withCur s { y with argLen := BitVec.ofNat 32 m }) = .next (withCur s
      { y with argLen := BitVec.ofNat 32 m, resCsum := checksum (y.memRead y.argOff.toNat m), cc := .ok }) := by
  have hcap := s.par.bufCap_le
  have hm : (BitVec.ofNat 32 m).toNat = m := by rw [BitVec.toNat_ofNat]; omega
  have hfits' : y.argOff.toNat + (BitVec.ofNat 32 m).toNat ≤ s.par.bufCap := by rwa [hm]
  have hoperand : Ctx.operand { y with argLen := BitVec.ofNat 32 m } = y.memRead y.argOff.toNat m :=
    congrArg (y.memRead y.argOff.toNat) hm
  have heffect : effect s.par s.priv .csum { y with argLen := BitVec.ofNat 32 m } =
      { y with argLen := BitVec.ofNat 32 m, resCsum := checksum (y.memRead y.argOff.toNat m), cc := .ok } := by
    rw [effect, Ctx.csum_of_fits hfits', hoperand]
  rw [exec_withCur hx, heffect]

end Sys2Proof.Machine

namespace Sys2Proof.Proofs

open Sys2Proof.Machine Sys2Proof.Spec

/-- Settles O55: `CSUM` reads the pseudo-header that `PSH` wrote and the segment behind it. -/
theorem hostChecksASegment : Obligations.HostChecksASegment := by
  unfold Obligations.HostChecksASegment
  intro s x n hx hfits
  have hpseudo : x.argOff.toNat + 12 ≤ s.par.bufCap := by omega
  obtain ⟨y, hpsh, hoff, hread⟩ := exists_memRead_add_of_emit (i := .psh) hx rfl hpseudo
  have hcsum : exec .csum (withCur s { y with argLen := BitVec.ofNat 32 (12 + n) }) = _ :=
    exec_csum_of_argLen hx (hoff ▸ hfits)
  exact ⟨y, _, hpsh, hcsum, rfl, congrArg checksum (hread n)⟩

end Sys2Proof.Proofs
end

section
/-! PROOFS. The classifier's corner cases (R144), each an outcome of `classify`. -/

namespace Sys2Proof.Machine

/-- A byte at an index that is looked up alike is the same byte. -/
theorem byteAt_congr {d e : List Byte} {i : Nat} (h : d[i]? = e[i]?) : byteAt d i = byteAt e i := by
  rw [byteAt, byteAt, List.getD_eq_getElem?_getD, List.getD_eq_getElem?_getD, h]

/-- The classifier looks at the length and at bytes 9, 20 and 21 only. -/
theorem classify_congr {p : Params} {d e : List Byte} (hlen : d.length = e.length) (hproto : byteAt d 9 = byteAt e 9)
    (htype : byteAt d 20 = byteAt e 20) (hcode : byteAt d 21 = byteAt e 21) : classify p d = classify p e := by
  rw [classify, classify, hlen, hproto, htype, hcode]

/-- Code 0 of "destination unreachable" is no filtering code (R143). -/
theorem zero_notMem_filteringCodes : (0 : Byte) ∉ filteringCodes := by decide

end Sys2Proof.Machine

namespace Sys2Proof.Proofs

open Sys2Proof.Machine

/-- Settles O58: each clause is one outcome of the classifier at those lengths. -/
theorem classifierCornerCases : Obligations.ClassifierCornerCases := by
  unfold Obligations.ClassifierCornerCases
  intro par
  refine ⟨fun d hshort => ?short, fun d hlong hshort => ⟨fun hproto => ?other, fun hicmp => ?noType⟩, fun d hlong => ?complete,
    fun d hne hlong htcp => ?tcp, fun d hlong hicmp htype hcode => ?code0, fun d e _ hlen h9 h20 h21 => ?alike⟩
  case short => exact classify_of_short (.inl hshort)
  case other => exact classify_of_other_proto hlong hproto
  case noType => exact classify_of_short (.inr ⟨hicmp, hshort⟩)
  case complete =>
    rw [ne_eq, classify_eq_none_iff]
    omega
  case tcp => exact classify_of_other_proto hlong (htcp ▸ hne)
  case code0 => rw [classify_of_icmp hlong hicmp, hcode, if_neg fun h => zero_notMem_filteringCodes h.2]
  case alike => exact classify_congr hlen (byteAt_congr h9) (byteAt_congr h20) (byteAt_congr h21)

end Sys2Proof.Proofs
end

section
/-! PROOFS. What each command leaves alone however it completes (R15, R20, R190), and the two inputs that gate nothing but what they
should: the flag `FATAL` (R174) and the privilege (R178); and where `RANGE` comes from (R46). -/

namespace Sys2Proof.Machine

open Sys2Proof.Spec

/-! ### The frame of a command -/

/-- What command `i` keeps of context `x` in making `y` of it: `CMD`, every sticky flag that is set, and all that only another command
writes. -/
structure Ctx.KeptBy (i : Instr) (x y : Ctx) : Prop where
  cmd : y.cmd = x.cmd
  fvalid : x.fvalid = true → y.fvalid = true
  txen : x.txen = true → y.txen = true
  fatal : x.fatal = true → y.fatal = true
  bankF : i ≠ .finit → i ≠ .gen → y.fIp = x.fIp ∧ y.fTcp = x.fTcp
  bankHIp : i ≠ .decIp → y.hIp = x.hIp
  bankHTcp : i ≠ .decTcp → y.hTcp = x.hTcp
  packet : i ≠ .gen → y.pktLen = x.pktLen ∧ y.pkt = x.pkt ∧ y.fill = x.fill
  slot : i ≠ .tx → y.slot = x.slot

/-- A completion code touches nothing that a command is to keep. -/
theorem Ctx.KeptBy.complete {i : Instr} {x y : Ctx} (h : Ctx.KeptBy i x y) (cc : Completion) : Ctx.KeptBy i x (y.complete cc) :=
  { h with }

theorem Ctx.KeptBy.refl (i : Instr) (x : Ctx) : Ctx.KeptBy i x x :=
  ⟨rfl, id, id, id, fun _ _ => ⟨rfl, rfl⟩, fun _ => rfl, fun _ => rfl, fun _ => ⟨rfl, rfl, rfl⟩, fun _ => rfl⟩

/-- Nor does a write of `BUF`. -/
theorem Ctx.KeptBy.memWrite {i : Instr} {x y : Ctx} (h : Ctx.KeptBy i x y) (a : Nat) (b : List Byte) :
    Ctx.KeptBy i x (y.memWrite a b) :=
  { h with }

/-- A command that is done writes no more than is its own. -/
theorem Done.keptBy {p : Params} {priv : Bool} {i : Instr} {x y : Ctx} (h : Done p priv i x y) : Ctx.KeptBy i x y := by
  have hx := Ctx.KeptBy.refl i x
  cases i with
  | nop => obtain rfl := h; exact hx
  | encIp | encTcp | psh => obtain ⟨-, rfl⟩ := h; exact hx.memWrite _ _
  | csum => obtain ⟨-, rfl⟩ := h; exact { hx with }
  | icls => obtain ⟨-, r, -, rfl⟩ := h; exact { hx with }
  | decIp => obtain ⟨-, -, rfl⟩ := h; exact { hx with bankHIp := fun hne => absurd rfl hne }
  | decTcp => obtain ⟨-, -, rfl⟩ := h; exact { hx with bankHTcp := fun hne => absurd rfl hne }
  | finit => obtain rfl := h; exact { hx with fvalid := fun _ => rfl, bankF := fun hne => absurd rfl hne }
  | gen =>
    obtain ⟨-, -, -, rfl⟩ := h
    exact { hx with bankF := fun _ hne => absurd rfl hne, packet := fun hne => absurd rfl hne }
  | txopen => obtain ⟨-, rfl⟩ := h; exact { hx with txen := fun _ => rfl }
  | tx => obtain ⟨-, -, -, -, rfl⟩ := h; exact { hx with slot := fun hne => absurd rfl hne }

/-- The frame of a command, whether it fails or is done. -/
theorem effect_keptBy (p : Params) (priv : Bool) (i : Instr) (x : Ctx) : Ctx.KeptBy i x (effect p priv i x) := by
  rcases effect_cases p priv i x with ⟨cc, -, -, heff⟩ | ⟨-, -, heff⟩ | ⟨y, heff, hdone⟩
  · rw [heff]
    exact (Ctx.KeptBy.refl i x).complete cc
  · rw [heff]
    exact { Ctx.KeptBy.refl i x with fatal := fun _ => rfl }
  · rw [heff]
    exact hdone.keptBy.complete .ok

/-! ### `FATAL` and the privilege -/

/-- A command's result with the flag `FATAL` it was to keep, `b`, which the code `NOPRIV` sets (R174). -/
def Ctx.keepFatal (y : Ctx) (b : Bool) : Ctx := { y with fatal := if y.cc = .noPriv then true else b }

/-- A command's output at `ARG_OFF` and its bounds check have nothing to do with `FATAL`. -/
theorem Ctx.emit_with_fatal (p : Params) (x : Ctx) (s : List Byte) (b : Bool) :
    Ctx.emit p { x with fatal := b } s = (x.emit p s).keepFatal b := by
  simp only [Ctx.emit, Ctx.ite_outside]
  split <;> rfl

/-- No command looks at `FATAL`; the flag comes out set where the code is `NOPRIV`, else as it went in (R174). -/
theorem effect_with_fatal (p : Params) (priv : Bool) (i : Instr) (x : Ctx) (b : Bool) :
    effect p priv i { x with fatal := b } = (effect p priv i x).keepFatal b := by
  cases i with
  | nop | finit => rfl
  | encIp | encTcp | psh => exact x.emit_with_fatal p _ b
  | decIp | decTcp =>
    simp only [effect, Ctx.decIp, Ctx.decTcp, Ctx.ite_outside]
    split_ifs <;> rfl
  | csum =>
    simp only [effect, Ctx.csum, Ctx.ite_outside]
    split <;> rfl
  | gen =>
    simp only [effect, Ctx.gen, Ctx.ite_outside]
    split_ifs <;> rfl
  | icls =>
    have hoperand : Ctx.operand { x with fatal := b } = x.operand := rfl
    simp only [effect, Ctx.icls, Ctx.ite_outside, hoperand]
    split
    · rfl
    · cases classify p x.operand <;> rfl
  | txopen =>
    simp only [effect, Ctx.txopen]
    split <;> rfl
  | tx =>
    simp only [effect, Ctx.tx]
    split_ifs <;> rfl

/-- `NOPRIV` is the one code that sets `FATAL`. -/
theorem fatal_effect (p : Params) (priv : Bool) (i : Instr) (x : Ctx) :
    (effect p priv i x).fatal = if (effect p priv i x).cc = .noPriv then true else x.fatal :=
  congrArg Ctx.fatal (effect_with_fatal p priv i x x.fatal)

/-- No command but `TXOPEN` and `TX` looks at the privilege. -/
theorem effect_priv_irrel {i : Instr} (hopen : i ≠ .txopen) (htx : i ≠ .tx) (p : Params) (priv priv' : Bool) (x : Ctx) :
    effect p priv i x = effect p priv' i x := by
  cases i with
  | txopen => exact absurd rfl hopen
  | tx => exact absurd rfl htx
  | _ => rfl

/-- The check of the privilege is the first one of the two commands that have it (R172). -/
theorem codeOf_eq_noPriv_iff {p : Params} {priv : Bool} {x : Ctx} {i : Instr} :
    codeOf p priv x i = .noPriv ↔ (i = .txopen ∨ i = .tx) ∧ priv = false := by
  constructor
  · intro h
    unfold codeOf at h
    split_ifs at h
    assumption
  · rintro ⟨hi, hpriv⟩
    have hgen : i ≠ .gen := by rcases hi with rfl | rfl <;> decide
    rw [codeOf, if_neg fun h => hgen h.1, if_pos ⟨hi, hpriv⟩]

/-! ### `RANGE` -/

/-- A command that moves `n` bytes that do not lie inside `BUF` is refused with `RANGE` (R46). -/
theorem effect_of_outside {p : Params} {priv : Bool} {x : Ctx} {i : Instr} {n : Nat} (hn : bufferLength x i = some n)
    (hgen : i = .gen → x.fvalid = true) (hout : p.bufCap < x.argOff.toNat + n) :
    effect p priv i x = { x with cc := .range } := by
  cases i with
  | encIp | encTcp | psh => cases hn; exact Ctx.emit_of_not_fits hout
  | decIp | decTcp =>
    cases hn
    simp only [effect, Ctx.decIp, Ctx.decTcp, Ctx.ite_outside, if_pos hout]
    rfl
  | csum => cases hn; exact Ctx.csum_of_not_fits hout
  | gen => cases hn; exact Ctx.gen_of_range (hgen rfl) (.inl hout)
  | icls => cases hn; exact Ctx.icls_of_not_fits hout
  | nop | finit | txopen | tx => cases hn

/-- Inside `BUF` the one command that still completes `RANGE` is a `GEN` of too long a payload (R128). -/
theorem codeOf_eq_range_iff {p : Params} {priv : Bool} {x : Ctx} {i : Instr} {n : Nat} (hn : bufferLength x i = some n)
    (hgen : i = .gen → x.fvalid = true) (hin : x.argOff.toNat + n ≤ p.bufCap) :
    codeOf p priv x i = .range ↔ i = .gen ∧ 65495 < x.argLen.toNat := by
  have hinside : ¬ ∃ m, bufferLength x i = some m ∧ p.bufCap < x.argOff.toNat + m := by
    rintro ⟨m, hm, hout⟩
    cases hn.symm.trans hm
    omega
  constructor
  · intro h
    unfold codeOf at h
    split_ifs at h
    assumption
  · rintro ⟨rfl, hlong⟩
    have hvalid : ¬ (Instr.gen = .gen ∧ x.fvalid = false) := by simp [hgen rfl]
    rw [codeOf, if_neg hvalid, if_neg (by simp), if_neg (by simp), if_neg (by simp), if_neg (by simp), if_neg hinside,
      if_pos ⟨rfl, hlong⟩]

end Sys2Proof.Machine

namespace Sys2Proof.Proofs

open Sys2Proof.Machine Sys2Proof.Spec

/-- Settles O35: bank `F` and each half of bank `H` are in the frame of every command that does not write them. -/
theorem banksAreSeparate : Obligations.BanksAreSeparate := by
  unfold Obligations.BanksAreSeparate
  intro s t i x y hx hexec hy
  rw [exec_eq_withCur hx] at hexec
  cases hexec
  obtain rfl : effect s.par s.priv i x = y := Option.some.inj ((ctx_withCur hx _).symm.trans hy)
  have hkept := effect_keptBy s.par s.priv i x
  exact ⟨hkept.bankF, hkept.bankHIp, hkept.bankHTcp⟩

/-- Settles O44: a command's effect with the flag changed is its effect, the flag changed. -/
theorem fatalGatesNothing : Obligations.FatalGatesNothing := by
  unfold Obligations.FatalGatesNothing
  intro s x i b hx
  have hfatal := fatal_effect s.par s.priv i x
  have hflag := exec_withCur hx i { x with fatal := b }
  rw [effect_with_fatal] at hflag
  exact ⟨_, _, exec_eq_withCur hx i, hflag, fun hcc => ⟨hfatal.trans (if_neg hcc), if_neg hcc⟩,
    fun hcc => ⟨hfatal.trans (if_pos hcc), if_pos hcc⟩⟩

/-- Settles O45: the code `NOPRIV` has one check of R172 behind it, and the effect of every other command does not depend on `PRIV`. -/
theorem privilegeGatesTransmissionOnly : Obligations.PrivilegeGatesTransmissionOnly := by
  unfold Obligations.PrivilegeGatesTransmissionOnly
  intro s x i b hx
  refine ⟨_, exec_eq_withCur hx i, by rw [cc_effect, codeOf_eq_noPriv_iff], fun hopen htx => ?_⟩
  rw [effect_priv_irrel hopen htx s.par s.priv b]
  exact exec_eq_withCur (s := { s with priv := b }) hx i

/-- Settles O19: outside `BUF` the bounds check fires, inside it only the payload limit of `GEN` gives `RANGE`. -/
theorem rangeOutsideTheBuffer : Obligations.RangeOutsideTheBuffer := by
  unfold Obligations.RangeOutsideTheBuffer
  intro s x i n hx hn hgen
  constructor
  · intro hout
    rw [exec_eq_withCur hx, effect_of_outside hn hgen hout]
  · intro hin
    exact ⟨_, exec_eq_withCur hx i, by rw [cc_effect, codeOf_eq_range_iff hn hgen hin]⟩

end Sys2Proof.Proofs
end

section
/-! PROOFS. The register map of R14 to R17 as one table over the registers: its rows, what a read of a row answers, and what a write of one
row makes of the table. -/

namespace Sys2Proof.Machine

open Sys2Proof.Spec

/-! ### Numbers of zero-extended and truncated values -/

/-- Zero-extension to a register's 32 bits keeps the number (R24). -/
theorem toNat_zeroExtend {w : Nat} (hw : w ≤ 32) (v : BitVec w) : (v.setWidth 32).toNat = v.toNat :=
  BitVec.toNat_setWidth_of_le hw

theorem toNat_zeroExtend_lt {w : Nat} (hw : w ≤ 32) (v : BitVec w) : (v.setWidth 32).toNat < 2 ^ w := by
  rw [toNat_zeroExtend hw]
  exact v.isLt

/-- A value truncated to a width and read back zero-extended is its residue (R24). -/
theorem toNat_zeroExtend_truncate {w : Nat} (hw : w ≤ 32) (v : Word) : ((v.setWidth w).setWidth 32).toNat = v.toNat % 2 ^ w := by
  rw [toNat_zeroExtend hw, BitVec.toNat_setWidth]

/-- The number of bits put together. -/
theorem toNat_append_eq {m n : Nat} (a : BitVec m) (b : BitVec n) : (a ++ b).toNat = a.toNat * 2 ^ n + b.toNat := by
  rw [BitVec.toNat_append, ← Nat.shiftLeft_add_eq_or_of_lt b.isLt, Nat.shiftLeft_eq]

/-! ### The rows -/

/-- Widths of the IPv4 registers (R14). -/
def ipWidth : IpField → Nat
  | .ver | .ihl => 4
  | .tos | .ttl | .proto => 8
  | .len | .id | .frag | .csum => 16
  | .src | .dst => 32

/-- Widths of the TCP registers (R14). -/
def tcpWidth : TcpField → Nat
  | .doff => 4
  | .flags => 8
  | .sport | .dport | .win | .csum | .urg => 16
  | .seq | .ack => 32

/-- The width of a register in bits (R14 to R17). -/
def regWidth : Reg → Nat
  | .ip _ f => ipWidth f
  | .tcp _ f => tcpWidth f
  | .resCls => 2
  | .phProto | .status => 8
  | .phLen | .fiSport | .fiDport | .resCsum | .pktLen => 16
  | .argOff | .argLen | .phSrc | .phDst | .fiSrc | .fiDst | .txDst | .cmd => 32

/-- The row of a register in the tables of R14 to R17: offset, width, the value read. -/
def Ctx.row (x : Ctx) (r : Reg) : Nat × Nat × Nat := (regOffset r, regWidth r, (x.getReg r).toNat)

/-- The numbers of R170. -/
theorem toNat_code (cc : Completion) : cc.code.toNat = codeNumber cc := by cases cc <;> rfl

/-- `STATUS` is the sum of its fields at their bits (R18). -/
theorem Ctx.toNat_status (x : Ctx) : x.status.toNat = statusNumber x := by
  simp only [Ctx.status, toNat_append_eq, BitVec.toNat_ofBool, toNat_code, statusNumber, Ctx.txpend]
  ring

/-- The tables of R14 to R17 are the rows of the registers, in order. -/
theorem registerFile_eq_map_row (x : Ctx) : registerFile x = regList.map x.row := by
  have hbankH : hRows x = (ipFieldList.map (Reg.ip .h) ++ tcpFieldList.map (Reg.tcp .h)).map x.row := by
    simp [-BitVec.toNat_setWidth, hRows, ipFieldList, tcpFieldList, Ctx.row, regOffset, bankBase, ipOffset, tcpOffset, regWidth,
      ipWidth, tcpWidth, Ctx.getReg, ipGet, tcpGet, toNat_zeroExtend]
  have hbankF : fRows x = (ipFieldList.map (Reg.ip .f) ++ tcpFieldList.map (Reg.tcp .f)).map x.row := by
    simp [-BitVec.toNat_setWidth, fRows, ipFieldList, tcpFieldList, Ctx.row, regOffset, bankBase, ipOffset, tcpOffset, regWidth,
      ipWidth, tcpWidth, Ctx.getReg, ipGet, tcpGet, toNat_zeroExtend]
  have hoperands : operandRows x =
      [Reg.argOff, .argLen, .phSrc, .phDst, .phProto, .phLen, .fiSrc, .fiDst, .fiSport, .fiDport, .txDst].map x.row := by
    simp [-BitVec.toNat_setWidth, operandRows, Ctx.row, regOffset, regWidth, Ctx.getReg, toNat_zeroExtend]
  have hcontrol : controlRows x = [Reg.cmd, .status, .resCsum, .resCls, .pktLen].map x.row := by
    simp [-BitVec.toNat_setWidth, controlRows, Ctx.row, regOffset, regWidth, Ctx.getReg, toNat_zeroExtend, Ctx.toNat_status]
  simp only [registerFile, hbankH, hbankF, hoperands, hcontrol, regList, List.map_append, List.append_assoc]

theorem nodup_regList : regList.Nodup := by decide

/-- The first 51 rows are registers the host writes, `CMD` not among them (R14 to R17). -/
theorem writable_of_getElem?_regList {k : Nat} {r : Reg} (hk : k < 51) (hr : regList[k]? = some r) :
    regWritable r = true ∧ r ≠ .cmd := by
  have hfirst : ∀ q ∈ regList.take 51, regWritable q = true ∧ q ≠ .cmd := by decide
  exact hfirst r (List.mem_of_getElem? ((List.getElem?_take_of_lt hk).trans hr))

/-! ### Reading and writing one row -/

theorem ipGet_lt (h : IpHdr) (f : IpField) : (ipGet h f).toNat < 2 ^ ipWidth f := by
  cases f with
  | src | dst => exact BitVec.isLt _
  | _ => exact toNat_zeroExtend_lt (by decide) _

theorem tcpGet_lt (t : TcpHdr) (f : TcpField) : (tcpGet t f).toNat < 2 ^ tcpWidth f := by
  cases f with
  | seq | ack => exact BitVec.isLt _
  | _ => exact toNat_zeroExtend_lt (by decide) _

/-- A register reads as a number of its width (R24). -/
theorem Ctx.getReg_lt (x : Ctx) (r : Reg) : (x.getReg r).toNat < 2 ^ regWidth r := by
  cases r with
  | ip b f => cases b <;> exact ipGet_lt _ f
  | tcp b f => cases b <;> exact tcpGet_lt _ f
  | argOff | argLen | phSrc | phDst | fiSrc | fiDst | txDst | cmd => exact BitVec.isLt _
  | _ => exact toNat_zeroExtend_lt (by decide) _

theorem ipGet_ipSet_same (h : IpHdr) (v : Word) (f : IpField) : (ipGet (ipSet h v f) f).toNat = v.toNat % 2 ^ ipWidth f := by
  cases f with
  | src | dst => exact (Nat.mod_eq_of_lt v.isLt).symm
  | _ => exact toNat_zeroExtend_truncate (by decide) v

theorem tcpGet_tcpSet_same (t : TcpHdr) (v : Word) (f : TcpField) :
    (tcpGet (tcpSet t v f) f).toNat = v.toNat % 2 ^ tcpWidth f := by
  cases f with
  | seq | ack => exact (Nat.mod_eq_of_lt v.isLt).symm
  | _ => exact toNat_zeroExtend_truncate (by decide) v

/-- A register the host writes stores the value truncated to its width (R24). -/
theorem Ctx.getReg_setReg_same (x : Ctx) (v : Word) {r : Reg} (hr : regWritable r = true) :
    ((x.setReg v r).getReg r).toNat = v.toNat % 2 ^ regWidth r := by
  cases r with
  | ip b f => cases b <;> exact ipGet_ipSet_same _ v f
  | tcp b f => cases b <;> exact tcpGet_tcpSet_same _ v f
  | status | resCsum | resCls | pktLen => cases hr
  | phProto | phLen | fiSport | fiDport => exact toNat_zeroExtend_truncate (by decide) v
  | _ => exact (Nat.mod_eq_of_lt v.isLt).symm

/-- Two maps over a list without repetition that differ at one member differ at its place. -/
theorem map_eq_set_map {α β : Type} {l : List α} {f g : α → β} {k : Nat} {a : α} (hl : l.Nodup) (hk : l[k]? = some a)
    (hother : ∀ b, b ≠ a → f b = g b) : l.map f = (l.map g).set k (f a) := by
  obtain ⟨hlt, -⟩ := List.getElem?_eq_some_iff.mp hk
  apply List.ext_getElem?
  intro j
  by_cases hj : k = j
  · subst hj
    rw [List.getElem?_set_self (by simpa using hlt), List.getElem?_map, hk]
    rfl
  · rw [List.getElem?_set_ne hj, List.getElem?_map, List.getElem?_map]
    cases hb : l[j]? with
    | none => rfl
    | some b =>
      have hne : b ≠ a := fun e => hj ((List.getElem?_inj hlt hl).mp (hk.trans (e ▸ hb.symm)))
      exact congrArg some (hother b hne)

/-- A write of the register of row `k` replaces the value of that row and no other. -/
theorem registerFile_setReg (x : Ctx) (v : Word) {k : Nat} {r : Reg} (hk : regList[k]? = some r) (hr : regWritable r = true) :
    registerFile (x.setReg v r) = (registerFile x).set k (regOffset r, regWidth r, v.toNat % 2 ^ regWidth r) := by
  have hsame : (x.setReg v r).row r = (regOffset r, regWidth r, v.toNat % 2 ^ regWidth r) := by
    rw [Ctx.row, Ctx.getReg_setReg_same x v hr]
  rw [registerFile_eq_map_row, registerFile_eq_map_row, ← hsame]
  refine map_eq_set_map nodup_regList hk fun q hq => ?_
  rw [Ctx.row, Ctx.row, Ctx.getReg_setReg_other x v hq]

/-- A 32-bit write at the offset of a register the host writes, `CMD` apart, stores the value there (R24). -/
theorem accessEffect_write_reg (p : Params) (priv : Bool) {r : Reg} (hr : regWritable r = true) (hcmd : r ≠ .cmd) (v : Word)
    (x : Ctx) : accessEffect p priv (.write 32 (regOffset r) v) x = (x.setReg v r, .done) := by
  simp [accessEffect, writeEffect, hr]

/-- The step of a read: it is answered, and the context stays as it is (R47). -/
theorem step_of_read {s : State} {c width a : Nat} {rest : List Input} {x : Ctx} (hi : s.inputs = .host c (.read width a) :: rest)
    (hx : s.ctxs[c]? = some x) :
    step s = .next { s with inputs := rest, cur := c, resp := some (x.hostRead s.par width a) } := by
  rw [step_of_host hi hx, accessEffect, State.set_same hx]

/-- A 32-bit read at the offset of a register answers that register (R24). -/
theorem Ctx.hostRead_reg (p : Params) (x : Ctx) (r : Reg) : x.hostRead p 32 (regOffset r) = .value (x.getReg r) := by
  rw [Ctx.hostRead, target_reg]

end Sys2Proof.Machine

namespace Sys2Proof.Proofs

open Sys2Proof.Machine Sys2Proof.Spec

/-- Settles O20: row `k` is that of a register the host writes, and the write replaces the value of that row. -/
theorem registerWriteIsTruncated : Obligations.RegisterWriteIsTruncated := by
  unfold Obligations.RegisterWriteIsTruncated
  intro s c k o w old v rest x hrow hk hi hx
  rw [registerFile_eq_map_row, List.getElem?_map] at hrow
  obtain ⟨r, hr, hrow⟩ := Option.map_eq_some_iff.mp hrow
  cases hrow
  obtain ⟨hwritable, hcmd⟩ := writable_of_getElem?_regList hk hr
  refine ⟨x.setReg v r, ?_, registerFile_setReg x v hr hwritable, ?_, ?_, ?_, ?_⟩
  · rw [step_of_host hi hx, accessEffect_write_reg s.par s.priv hwritable hcmd]
  · rw [Ctx.setReg_buf]
  · rw [Ctx.setReg_pkt]
  · rw [Ctx.setReg_slot]
  · rw [Ctx.setReg_fill]

/-- Settles O21: the row is that of a register, which a read at its offset answers. -/
theorem registerReadsAnswerTheStoredValue : Obligations.RegisterReadsAnswerTheStoredValue := by
  unfold Obligations.RegisterReadsAnswerTheStoredValue
  intro s c o w n rest x hrow hi hx
  rw [registerFile_eq_map_row] at hrow
  obtain ⟨r, -, hrow⟩ := List.mem_map.mp hrow
  cases hrow
  exact ⟨x.getReg r, by rw [step_of_read hi hx, Ctx.hostRead_reg], rfl, x.getReg_lt r⟩

/-- Settles O26: `STATUS` is a row of the map. -/
theorem statusReadsItsFields : Obligations.StatusReadsItsFields := by
  unfold Obligations.StatusReadsItsFields
  intro s c rest x hx hi
  have hrow : (0x134, 8, statusNumber x) ∈ registerFile x := by simp [registerFile, controlRows]
  obtain ⟨v, hstep, hv, -⟩ := registerReadsAnswerTheStoredValue s c 0x134 8 (statusNumber x) rest x hrow hi hx
  exact ⟨v, hstep, hv⟩

end Sys2Proof.Proofs
end

section
/-! PROOFS. The host port: the byte windows of `BUF` and `PKT` (R19, R20), a read taken twice (R47), the word that `CMD` holds (R17), and
the accesses of two contexts in either order (R50). -/

namespace Sys2Proof.Machine

open Sys2Proof.Spec

/-! ### Runs -/

/-- A run of any machine goes on from the state its first step answers. -/
theorem core_run_succ_of_step {M : Host.Core} {s t : M.State} (h : M.step s = .next t) (k : Nat) : M.run (k + 1) s = M.run k t := by
  rw [Host.Core.run, h]

/-- A run of any machine that answers a next state took a first step. -/
theorem exists_step_of_core_run_succ {M : Host.Core} {s t : M.State} {k : Nat} (h : M.run (k + 1) s = .next t) :
    ∃ u, M.step s = .next u ∧ M.run k u = .next t := by
  cases hstep : M.step s with
  | next u => exact ⟨u, rfl, (core_run_succ_of_step hstep k).symm.trans h⟩
  | fault r => simp [Host.Core.run, hstep] at h
  | refused r => simp [Host.Core.run, hstep] at h

/-- A run of the engine goes on from the state its first step answers. -/
theorem run_succ_of_step {s t : State} (h : step s = .next t) (k : Nat) : core.run (k + 1) s = core.run k t :=
  core_run_succ_of_step (M := core) h k

/-- Two steps are a run of two. -/
theorem run_two_of_steps {s t u : State} (hfirst : step s = .next t) (hsecond : step t = .next u) : core.run 2 s = .next u :=
  (run_succ_of_step hfirst 1).trans (run_succ_of_step hsecond 0)

/-! ### Single accesses -/

/-- A byte write inside the window of `BUF` (R19, R44). -/
theorem accessEffect_write_buf {p : Params} {i : Nat} (hi : i < p.bufCap) (priv : Bool) (v : Word) (x : Ctx) :
    accessEffect p priv (.write 8 (0x10000 + i) v) x = (x.memWrite i [v.setWidth 8], .done) := by
  simp [accessEffect, writeEffect, target_buf hi]

/-- Every byte of `BUF` after one byte was written. -/
theorem Ctx.bufByte_memWrite_one (x : Ctx) (i : Nat) (v : Byte) (j : Nat) :
    (x.memWrite i [v]).bufByte j = if j = i then v else x.bufByte j := by
  rw [Ctx.bufByte_memWrite]
  by_cases hj : j = i
  · subst hj
    simp
  · rw [if_neg hj, if_neg]
    simp only [List.length_singleton]
    omega

/-- A byte read inside the window of `BUF` (R19). -/
theorem Ctx.hostRead_buf {p : Params} {i : Nat} (hi : i < p.bufCap) (x : Ctx) :
    x.hostRead p 8 (0x10000 + i) = .value ((x.bufByte i).setWidth 32) := by
  rw [Ctx.hostRead, target_buf hi]

/-- A byte read inside the window of `PKT` (R20). -/
theorem Ctx.hostRead_pkt {i : Nat} (hi : i < Config.pktCap) (p : Params) (x : Ctx) :
    x.hostRead p 8 (0x20000 + i) = .value ((x.pktByte i).setWidth 32) := by
  rw [Ctx.hostRead, target_pkt hi]

/-- All that a command word can do: take effect as the command it is the encoding of, or raise `ILLEGAL` (R71). -/
theorem wordEffect_cases (p : Params) (priv : Bool) (w : Word) (x : Ctx) :
    (∃ i, w = encode i ∧ wordEffect p priv w x = effect p priv i x) ∨ wordEffect p priv w x = x.raise .illegal := by
  by_cases hlegal : ∃ i, decode w = .ok i
  · obtain ⟨i, hi⟩ := hlegal
    exact .inl ⟨i, decode_eq_ok_iff_eq_encode.mp hi, wordEffect_of_ok hi p priv x⟩
  · exact .inr (wordEffect_of_ne_ok (not_exists.mp hlegal) p priv x)

/-- A command word keeps what its command keeps, and an illegal one as much as `NOP`. -/
theorem exists_keptBy_wordEffect (p : Params) (priv : Bool) (w : Word) (x : Ctx) :
    ∃ i, (i = .nop ∨ w = encode i) ∧ Ctx.KeptBy i x (wordEffect p priv w x) := by
  rcases wordEffect_cases p priv w x with ⟨i, hi, heff⟩ | heff
  · exact ⟨i, .inr hi, heff ▸ effect_keptBy p priv i x⟩
  · exact ⟨.nop, .inl rfl, heff ▸ (Ctx.KeptBy.refl .nop x).complete .illegal⟩

/-- No command word changes what `CMD` holds. -/
theorem cmd_wordEffect (p : Params) (priv : Bool) (w : Word) (x : Ctx) : (wordEffect p priv w x).cmd = x.cmd := by
  obtain ⟨i, -, hkept⟩ := exists_keptBy_wordEffect p priv w x
  exact hkept.cmd

/-! ### Two accesses -/

/-- Two accesses at the ports of different contexts: each takes effect on its own context as that stood at first. -/
theorem steps_of_two_hosts {s : State} {c d : Nat} {a b : Access} {rest : List Input} {x y : Ctx}
    (hi : s.inputs = .host c a :: .host d b :: rest) (hcd : c ≠ d) (hx : s.ctxs[c]? = some x) (hy : s.ctxs[d]? = some y) :
    ∃ t u, step s = .next t ∧ step t = .next u ∧ t.resp = some (accessEffect s.par s.priv a x).2 ∧
      u = { s with
            inputs := rest
            cur := d
            resp := some (accessEffect s.par s.priv b y).2
            ctxs := (s.ctxs.set c (accessEffect s.par s.priv a x).1).set d (accessEffect s.par s.priv b y).1 } := by
  have hy' : (s.ctxs.set c (accessEffect s.par s.priv a x).1)[d]? = some y := (List.getElem?_set_ne hcd).trans hy
  exact ⟨_, _, step_of_host hi hx, step_of_host rfl hy', rfl, rfl⟩

end Sys2Proof.Machine

namespace Sys2Proof.Proofs

open Sys2Proof.Machine Sys2Proof.Spec

/-- Settles O24: the write is one byte written to `BUF`, the read the byte of `BUF` at that index. -/
theorem bufWindowIsByteMemory : Obligations.BufWindowIsByteMemory := by
  unfold Obligations.BufWindowIsByteMemory
  intro s c i v rest x hx hcap
  constructor
  · intro hi
    have hread := x.bufByte_memWrite_one i (v.setWidth 8)
    refine ⟨x.buf.writeBytes i [v.setWidth 8], ?_, ?_, fun j hj => (hread j).trans (if_neg hj)⟩
    · rw [step_of_host hi hx, accessEffect_write_buf hcap]
      rfl
    · exact (congrArg BitVec.toNat ((hread i).trans (if_pos rfl))).trans (BitVec.toNat_setWidth 8 v)
  · intro hi
    rw [step_of_read hi hx, Ctx.hostRead_buf hcap]

/-- Settles O25: the read is the byte of `PKT` at that index, which beyond `PKT_LEN` is the free one. -/
theorem pktWindowReadsThePacket : Obligations.PktWindowReadsThePacket := by
  unfold Obligations.PktWindowReadsThePacket
  intro s c i rest x hx hcap hi
  constructor
  · rw [step_of_read hi hx, Ctx.hostRead_pkt hcap]
  · intro hbeyond
    rw [Ctx.pktByte, if_neg (by omega), Ctx.pktFree]

/-- Settles O23: the second read finds the context of the first. -/
theorem readsHaveNoEffect : Obligations.ReadsHaveNoEffect := by
  unfold Obligations.ReadsHaveNoEffect
  intro s c width a rest x hi hx
  have hfirst := step_of_read hi hx
  exact ⟨x.hostRead s.par width a, hfirst, run_two_of_steps hfirst (step_of_read rfl hx)⟩

/-- Settles O27: the word is stored before it runs, no command changes it, and the read answers it. -/
theorem cmdHoldsTheLastWord : Obligations.CmdHoldsTheLastWord := by
  unfold Obligations.CmdHoldsTheLastWord
  intro s c w rest x hi hx
  obtain ⟨hc, -⟩ := List.getElem?_eq_some_iff.mp hx
  have hwrite := step_write_cmd_eq_next hi hx
  have hy : (s.ctxs.set c (wordEffect s.par s.priv w { x with cmd := w }))[c]? = some _ := List.getElem?_set_self hc
  have hcmd := cmd_wordEffect s.par s.priv w { x with cmd := w }
  refine ⟨_, _, run_two_of_steps hwrite (step_of_read rfl hy), ?_, hy, hcmd⟩
  exact congrArg some ((Ctx.hostRead_reg s.par _ .cmd).trans (congrArg Resp.value hcmd))

/-- Settles O34: in either order both accesses take effect on their own contexts as these stood at first. -/
theorem contextsInterleaveFreely : Obligations.ContextsInterleaveFreely := by
  unfold Obligations.ContextsInterleaveFreely
  intro s c d a b rest x y hcd hx hy
  obtain ⟨t₁, t₂, ht₁, ht₂, hresp₁, rfl⟩ :=
    steps_of_two_hosts (s := { s with inputs := .host c a :: .host d b :: rest }) rfl hcd hx hy
  obtain ⟨u₁, u₂, hu₁, hu₂, hresp₂, rfl⟩ :=
    steps_of_two_hosts (s := { s with inputs := .host d b :: .host c a :: rest }) rfl hcd.symm hy hx
  exact ⟨t₁, _, u₁, _, ht₁, ht₂, hu₁, hu₂, List.set_comm _ _ hcd, rfl, rfl, rfl, rfl, hresp₁, hresp₂.symm⟩

end Sys2Proof.Proofs
end

section
/-! PROOFS. The engine right after a reset (R190 to R193): its buffers, `WIRE`, and the invariant. -/

namespace Sys2Proof.Machine

/-- After a reset a byte of `BUF` is the free value (R192). -/
theorem Ctx.bufByte_reset (e c i : Nat) : (Ctx.reset e c).bufByte i = Config.bufByte e c i := rfl

/-- After a reset a byte of `PKT` is the free value (R192). -/
theorem Ctx.pktByte_reset (e c i : Nat) : (Ctx.reset e c).pktByte i = Config.pktByte e c 0 i := if_neg (Nat.not_lt_zero i)

/-- A context right after a reset is good under any parameters and any grant. -/
theorem Ctx.good_reset (par : Params) (priv : Bool) (e c : Nat) : (Ctx.reset e c).Good par priv where
  bufWf := rfl
  pktWf := rfl
  pktCells i := ⟨nofun, fun h => absurd h (Nat.not_lt_zero i)⟩
  pktHead := .inl rfl
  clsLegal := (by decide : (0 : BitVec 2) ≠ 3)
  openPriv := nofun
  fatalNoPriv := nofun
  slotOpen := nofun

theorem good_of_mem_resetCtxs {e c n : Nat} {x : Ctx} (h : x ∈ resetCtxs e c n) (par : Params) (priv : Bool) : x.Good par priv := by
  obtain ⟨d, rfl⟩ := eq_reset_of_mem h
  exact Ctx.good_reset par priv e d

/-- An engine of one context at least is good right after its first reset. -/
theorem State.good_resetWith (par : Params) (priv : Bool) {n : Nat} (hn : 1 ≤ n) : (State.resetWith par priv n).Good where
  someCtx := by rwa [State.resetWith_ctxs, length_resetCtxs]
  ctxGood x hx := good_of_mem_resetCtxs hx par priv
  wireGood := nofun

/-- The engine has a first context (R4). -/
theorem one_le_nctx : 1 ≤ Config.nctx := Nat.succ_pos _

end Sys2Proof.Machine

namespace Sys2Proof.Proofs

open Sys2Proof.Machine

/-- Settles O29: a reset touches neither `WIRE` nor the inputs behind it, and its contexts have no slot valid. -/
theorem wireSurvivesReset : Obligations.WireSurvivesReset := by
  unfold Obligations.WireSurvivesReset
  refine ⟨rfl, fun s p rest hi => ⟨_, step_of_reset hi, rfl, ?_, rfl⟩⟩
  exact State.pending_eq_nil.mpr fun x hx => (registerFile_of_mem_resetCtxs hx).2

/-- Settles O30: every context is a reset context of the new number, whose buffers list no byte. -/
theorem buffersAreUnspecifiedAfterReset : Obligations.BuffersAreUnspecifiedAfterReset := by
  unfold Obligations.BuffersAreUnspecifiedAfterReset
  refine fun s p rest hi => ⟨_, step_of_reset hi, fun c x hx i => ?_⟩
  rw [State.resetAgain_ctxs, getElem?_resetCtxs, Nat.zero_add] at hx
  split at hx
  · cases hx
    exact ⟨Ctx.bufByte_reset _ c i, Ctx.pktByte_reset _ c i⟩
  · cases hx

/-- Settles O48: every context after a reset is good, and `WIRE` is empty. -/
theorem resetIsGood : Obligations.ResetIsGood := by
  unfold Obligations.ResetIsGood
  exact ⟨State.good_resetWith _ _ one_le_nctx, fun par priv n hn => State.good_resetWith par priv hn⟩

end Sys2Proof.Proofs
end

section
/-! PROOFS. The step of the engine by kinds: an access, an emission, a reset, or rest; and what each kind makes of the contexts, `WIRE` and
`PRIV` (R10, R47, R153, R190). -/

namespace Sys2Proof.Machine

/-- The kinds of step, by what they do to the contexts, `WIRE` and `PRIV`. -/
inductive StepKind (s t : State) : Prop
  | rest (ctxs : t.ctxs = s.ctxs) (wire : t.wire = s.wire) (priv : t.priv = s.priv)
  | access {c : Nat} {a : Access} {rest : List Input} {x : Ctx} (inputs : s.inputs = .host c a :: rest) (ctx : s.ctxs[c]? = some x)
      (ctxs : t.ctxs = s.ctxs.set c (accessEffect s.par s.priv a x).1) (wire : t.wire = s.wire) (priv : t.priv = s.priv)
  | emission {c : Nat} {x : Ctx} {p : Slot} (ctx : s.ctxs[c]? = some x) (slot : x.slot = some p)
      (ctxs : t.ctxs = s.ctxs.set c { x with slot := none })
      (wire : t.wire = s.wire ++ [{ ctx := c, dst := p.dst, dport := 0, bytes := p.bytes }]) (priv : t.priv = s.priv)
  | reset {g : Bool} {rest : List Input} (inputs : s.inputs = .reset g :: rest)
      (ctxs : t.ctxs = resetCtxs (s.epoch + 1) 0 s.ctxs.length) (wire : t.wire = s.wire)

/-- Every step is of one of the kinds; besides, it takes its input off the list and keeps the parameters. -/
theorem stepKind_of_step {s t : State} (h : step s = .next t) : StepKind s t ∧ t.par = s.par ∧ t.inputs = s.inputs.tail := by
  rcases step_cases h with ⟨hi, rfl⟩ | ⟨c, a, rest, x, hi, hx, rfl⟩ | ⟨c, rest, hi, rfl⟩ | ⟨g, rest, hi, rfl⟩
  · rw [hi]
    rcases s.idle_cases with ⟨-, hidle⟩ | ⟨c, x, p, -, hx, hp, hidle⟩
    · rw [hidle]
      exact ⟨.rest rfl rfl rfl, rfl, hi⟩
    · rw [hidle]
      exact ⟨.emission hx hp rfl rfl rfl, rfl, hi⟩
  · rw [hi]
    exact ⟨.access hi hx rfl rfl rfl, rfl, rfl⟩
  · rw [hi]
    rcases State.arbiter_cases { s with inputs := rest } c with harb | ⟨x, p, hx, hp, harb⟩
    · rw [harb]
      exact ⟨.rest rfl rfl rfl, rfl, rfl⟩
    · rw [harb]
      exact ⟨.emission hx hp rfl rfl rfl, rfl, rfl⟩
  · rw [hi]
    exact ⟨.reset hi rfl rfl, rfl, rfl⟩

section
variable {s t : State} (h : step s = .next t)
include h

theorem kind_of_step : StepKind s t := (stepKind_of_step h).1

theorem par_of_step : t.par = s.par := (stepKind_of_step h).2.1

theorem inputs_of_step : t.inputs = s.inputs.tail := (stepKind_of_step h).2.2

theorem length_ctxs_of_step : t.ctxs.length = s.ctxs.length := by
  cases kind_of_step h with
  | rest ctxs => rw [ctxs]
  | access _ _ ctxs => rw [ctxs, List.length_set]
  | emission _ _ ctxs => rw [ctxs, List.length_set]
  | reset _ ctxs => rw [ctxs, length_resetCtxs]

section
variable (hreset : ∀ g rest, s.inputs ≠ .reset g :: rest)
include hreset

theorem priv_of_step : t.priv = s.priv := by
  cases kind_of_step h with
  | rest _ _ priv => exact priv
  | access _ _ _ _ priv => exact priv
  | emission _ _ _ _ priv => exact priv
  | reset hi => exact absurd hi (hreset _ _)

/-- What a step that is no reset makes of a context: the same, the same with its packet emitted, or the effect of an access at its port. -/
theorem ctx_of_step {c : Nat} {x : Ctx} (hx : s.ctxs[c]? = some x) :
    ∃ y, t.ctxs[c]? = some y ∧ (y = x ∨ y = { x with slot := none } ∨
      ∃ a rest, s.inputs = .host c a :: rest ∧ y = (accessEffect s.par s.priv a x).1) := by
  obtain ⟨hc, -⟩ := List.getElem?_eq_some_iff.mp hx
  cases kind_of_step h with
  | rest ctxs => exact ⟨x, ctxs ▸ hx, .inl rfl⟩
  | @access d a rest z hi hz ctxs =>
    rw [ctxs]
    by_cases hdc : d = c
    · subst hdc
      cases hx.symm.trans hz
      exact ⟨_, List.getElem?_set_self hc, .inr (.inr ⟨a, rest, hi, rfl⟩)⟩
    · exact ⟨x, (List.getElem?_set_ne hdc).trans hx, .inl rfl⟩
  | @emission d z p hz _ ctxs =>
    rw [ctxs]
    by_cases hdc : d = c
    · subst hdc
      cases hx.symm.trans hz
      exact ⟨_, List.getElem?_set_self hc, .inr (.inl rfl)⟩
    · exact ⟨x, (List.getElem?_set_ne hdc).trans hx, .inl rfl⟩
  | reset hi => exact absurd hi (hreset _ _)

end

end

/-! ### What an access keeps -/

/-- No access clears a sticky flag (R190). -/
theorem accessEffect_flags (p : Params) (priv : Bool) (a : Access) (x : Ctx) :
    (x.fvalid = true → (accessEffect p priv a x).1.fvalid = true) ∧ (x.txen = true → (accessEffect p priv a x).1.txen = true) ∧
      (x.fatal = true → (accessEffect p priv a x).1.fatal = true) := by
  rcases accessEffect_cases p priv a x with heff | ⟨w, -, heff⟩ | ⟨r, v, -, -, -, heff⟩ | ⟨i, v, -, -, heff⟩
  · rw [heff]
    exact ⟨id, id, id⟩
  · obtain ⟨i, -, hkept⟩ := exists_keptBy_wordEffect p priv w { x with cmd := w }
    rw [heff]
    exact ⟨hkept.fvalid, hkept.txen, hkept.fatal⟩
  · rw [heff, Ctx.setReg_fvalid, Ctx.setReg_txen, Ctx.setReg_fatal]
    exact ⟨id, id, id⟩
  · rw [heff, Ctx.memWrite_fvalid, Ctx.memWrite_txen, Ctx.memWrite_fatal]
    exact ⟨id, id, id⟩

/-- No access but the write of `GEN`'s word to `CMD` writes `PKT` or `PKT_LEN` (R20). -/
theorem accessEffect_packet {p : Params} {priv : Bool} {a : Access} {x : Ctx} (hgen : a ≠ .write 32 0x130 (encode .gen)) :
    (accessEffect p priv a x).1.pktLen = x.pktLen ∧ (accessEffect p priv a x).1.pkt = x.pkt ∧
      (accessEffect p priv a x).1.fill = x.fill := by
  rcases accessEffect_cases p priv a x with heff | ⟨w, rfl, heff⟩ | ⟨r, v, -, -, -, heff⟩ | ⟨i, v, -, -, heff⟩
  · rw [heff]
    exact ⟨rfl, rfl, rfl⟩
  · obtain ⟨i, hi, hkept⟩ := exists_keptBy_wordEffect p priv w { x with cmd := w }
    have hne : i ≠ .gen := by
      rintro rfl
      rcases hi with hi | rfl
      · cases hi
      · exact hgen rfl
    rw [heff]
    exact hkept.packet hne
  · rw [heff]
    exact ⟨Ctx.setReg_pktLen .., Ctx.setReg_pkt .., Ctx.setReg_fill ..⟩
  · rw [heff]
    exact ⟨rfl, rfl, rfl⟩

/-- The slot after a command: as before, or, after a `TX` on an empty one, the packet of that moment (R152). -/
theorem effect_slot (p : Params) (priv : Bool) (i : Instr) (x : Ctx) :
    (effect p priv i x).slot = x.slot ∨
      (i = .tx ∧ x.slot = none ∧
        (effect p priv i x).slot = some { dst := x.txDst, len := x.pktLen, bytes := x.packet }) := by
  by_cases htx : i = .tx
  · subst htx
    rcases effect_cases p priv .tx x with ⟨cc, -, -, heff⟩ | ⟨-, -, heff⟩ | ⟨y, heff, -, -, -, hempty, rfl⟩
    · exact .inl (by rw [heff, Ctx.raise_slot])
    · exact .inl (by rw [heff, Ctx.raiseNoPriv_slot])
    · exact .inr ⟨rfl, hempty, by rw [heff, Ctx.complete_slot]⟩
  · exact .inl ((effect_keptBy p priv i x).slot htx)

/-- The slot after an access: as before, or, after the write of `TX`'s word on an empty one, the packet of that moment. -/
theorem accessEffect_slot (p : Params) (priv : Bool) (a : Access) (x : Ctx) :
    (accessEffect p priv a x).1.slot = x.slot ∨
      (a = .write 32 0x130 (encode .tx) ∧ x.slot = none ∧
        (accessEffect p priv a x).1.slot = some { dst := x.txDst, len := x.pktLen, bytes := x.packet }) := by
  rcases accessEffect_cases p priv a x with heff | ⟨w, rfl, heff⟩ | ⟨r, v, -, -, -, heff⟩ | ⟨i, v, -, -, heff⟩
  · exact .inl (by rw [heff])
  · rw [heff]
    rcases wordEffect_cases p priv w { x with cmd := w } with ⟨i, rfl, hword⟩ | hword
    · rw [hword]
      refine (effect_slot p priv i { x with cmd := encode i }).imp_right ?_
      rintro ⟨rfl, hempty, hslot⟩
      exact ⟨rfl, hempty, hslot⟩
    · exact .inl (by rw [hword, Ctx.raise_slot])
  · exact .inl (by rw [heff, Ctx.setReg_slot])
  · exact .inl (by rw [heff, Ctx.memWrite_slot])

/-- A byte of `PKT` depends on nothing but `PKT_LEN`, the bytes written and the key of the free ones. -/
theorem Ctx.pktByte_congr {x y : Ctx} (hlen : y.pktLen = x.pktLen) (hpkt : y.pkt = x.pkt) (hfill : y.fill = x.fill) (i : Nat) :
    y.pktByte i = x.pktByte i := by
  unfold Ctx.pktByte Ctx.pktFree
  rw [hlen, hpkt, hfill]

end Sys2Proof.Machine

namespace Sys2Proof.Proofs

open Sys2Proof.Machine

/-- Settles O31: a step that is no reset leaves a context as it is, empties its slot, or is an access, and no access clears a flag. -/
theorem onlyResetClearsTheStickyFlags : Obligations.OnlyResetClearsTheStickyFlags := by
  unfold Obligations.OnlyResetClearsTheStickyFlags
  intro s t h hreset
  refine ⟨priv_of_step h hreset, length_ctxs_of_step h, fun c x hx => ?_⟩
  obtain ⟨y, hy, rfl | rfl | ⟨a, rest, -, rfl⟩⟩ := ctx_of_step h hreset hx
  · exact ⟨_, hy, id, id, id⟩
  · exact ⟨_, hy, id, id, id⟩
  · exact ⟨_, hy, accessEffect_flags s.par s.priv a x⟩

/-- Settles O32: no kind of step touches the parameters or the number of contexts; the values at reset are those of `Config.params`. -/
theorem parametersStayFixed : Obligations.ParametersStayFixed := by
  unfold Obligations.ParametersStayFixed
  exact ⟨fun s t h => ⟨par_of_step h, length_ctxs_of_step h⟩, fun s => ⟨s.par.le_bufCap, s.par.bufCap_le⟩,
    resetIsGood.1.someCtx, rfl, rfl, rfl, rfl, rfl⟩

/-- Settles O36: of the accesses only `GEN`'s writes `PKT`, and neither an emission nor rest does. -/
theorem onlyGenWritesThePacketBuffer : Obligations.OnlyGenWritesThePacketBuffer := by
  unfold Obligations.OnlyGenWritesThePacketBuffer
  intro s t c x h hx hreset hgen
  obtain ⟨y, hy, rfl | rfl | ⟨a, rest, hi, rfl⟩⟩ := ctx_of_step h hreset hx
  · exact ⟨_, hy, rfl, fun i => rfl⟩
  · exact ⟨_, hy, rfl, fun i => rfl⟩
  · have hne : a ≠ .write 32 0x130 (encode .gen) := by
      rintro rfl
      exact hgen rest hi
    obtain ⟨hlen, hpkt, hfill⟩ := accessEffect_packet (p := s.par) (priv := s.priv) (x := x) hne
    exact ⟨_, hy, hlen, Ctx.pktByte_congr hlen hpkt hfill⟩

/-- Settles O43: only an emission writes `WIRE`, one record at its end. -/
theorem wireOnlyGrows : Obligations.WireOnlyGrows := by
  unfold Obligations.WireOnlyGrows
  intro s t h
  have unchanged (hwire : t.wire = s.wire) : ∃ l, t.wire = s.wire ++ l ∧ l.length ≤ 1 := ⟨[], by simp [hwire], Nat.zero_le 1⟩
  cases kind_of_step h with
  | rest _ wire => exact unchanged wire
  | access _ _ _ wire => exact unchanged wire
  | emission _ _ _ wire => exact ⟨_, wire, le_rfl⟩
  | reset _ _ wire => exact unchanged wire

end Sys2Proof.Proofs
end

section
/-! PROOFS. What a context has handed over for sending, step by step (R51, R155). -/

namespace Sys2Proof.Machine

open Sys2Proof.Spec

/-- What context `c` has handed over is read off `WIRE` and context `c`. -/
theorem sent_congr {s t : State} {c : Nat} (hwire : t.wire = s.wire) (hctx : t.ctxs[c]? = s.ctxs[c]?) : sent t c = sent s c := by
  rw [sent, sent, hwire, hctx]

/-- The records of `WIRE`, then the packet in the slot. -/
theorem sent_of_some {s : State} {c : Nat} {x : Ctx} (hx : s.ctxs[c]? = some x) :
    sent s c = (s.wire.filter fun r => r.ctx == c).map (fun r => (r.dst, r.bytes)) ++
      x.slot.toList.map fun p => (p.dst, p.bytes) := by
  rw [sent, hx]

section
variable {s t : State} {c d : Nat} {x : Ctx}

/-- An access adds to what its context has handed over by the write of `TX`'s word only, and to no other context's. -/
theorem sent_of_access {a : Access} (hx : s.ctxs[d]? = some x) (ctxs : t.ctxs = s.ctxs.set d (accessEffect s.par s.priv a x).1)
    (wire : t.wire = s.wire) :
    sent t c = sent s c ∨
      (a = .write 32 0x130 (encode .tx) ∧ d = c ∧ sent t c = sent s c ++ [(x.txDst, x.packet)]) := by
  by_cases hdc : d = c
  · subst hdc
    obtain ⟨hd, -⟩ := List.getElem?_eq_some_iff.mp hx
    have hy : t.ctxs[d]? = some (accessEffect s.par s.priv a x).1 := ctxs ▸ List.getElem?_set_self hd
    rw [sent_of_some hx, sent_of_some hy, wire]
    rcases accessEffect_slot s.par s.priv a x with hslot | ⟨ha, hempty, hslot⟩
    · exact .inl (by rw [hslot])
    · exact .inr ⟨ha, rfl, by rw [hslot, hempty]; simp⟩
  · exact .inl (sent_congr wire (ctxs ▸ List.getElem?_set_ne hdc))

/-- An emission moves a packet from the slot to the end of `WIRE`, where it stands in the same place of what was handed over. -/
theorem sent_of_emission {p : Slot} (hx : s.ctxs[d]? = some x) (hp : x.slot = some p) (ctxs : t.ctxs = s.ctxs.set d { x with slot := none })
    (wire : t.wire = s.wire ++ [{ ctx := d, dst := p.dst, dport := 0, bytes := p.bytes }]) : sent t c = sent s c := by
  by_cases hdc : d = c
  · subst hdc
    obtain ⟨hd, -⟩ := List.getElem?_eq_some_iff.mp hx
    have hy : t.ctxs[d]? = some { x with slot := none } := ctxs ▸ List.getElem?_set_self hd
    rw [sent_of_some hx, sent_of_some hy, wire, hp]
    simp
  · have hctx : t.ctxs[c]? = s.ctxs[c]? := ctxs ▸ List.getElem?_set_ne hdc
    have hfilter : (t.wire.filter fun r => r.ctx == c) = s.wire.filter fun r => r.ctx == c := by simp [wire, hdc]
    rw [sent, sent, hctx, hfilter]

/-- A reset drops the packet in the slot. -/
theorem sent_of_reset {e n : Nat} (ctxs : t.ctxs = resetCtxs e 0 n) (wire : t.wire = s.wire) :
    sent t c = (s.wire.filter fun r => r.ctx == c).map fun r => (r.dst, r.bytes) := by
  cases hy : t.ctxs[c]? with
  | none => rw [sent, hy, wire, List.append_nil]
  | some y =>
    have hempty : y.slot = none := (registerFile_of_mem_resetCtxs (ctxs ▸ List.mem_of_getElem? hy)).2
    rw [sent_of_some hy, hempty, wire]
    simp

end

end Sys2Proof.Machine

namespace Sys2Proof.Proofs

open Sys2Proof.Machine

/-- Settles O41: each kind of step keeps what was handed over, but for a `TX`, which adds to it, and a reset, which drops the slot. -/
theorem packetsLeaveInOrderUnchanged : Obligations.PacketsLeaveInOrderUnchanged := by
  unfold Obligations.PacketsLeaveInOrderUnchanged
  intro s t c h
  cases kind_of_step h with
  | rest ctxs wire => exact .inl (sent_congr wire (by rw [ctxs]))
  | @access d a rest x hi hx ctxs wire =>
    rcases sent_of_access (c := c) hx ctxs wire with hsame | ⟨rfl, rfl, hadded⟩
    · exact .inl hsame
    · exact .inr (.inl ⟨rest, x, hi, hx, hadded⟩)
  | emission hx hp ctxs wire => exact .inl (sent_of_emission hx hp ctxs wire)
  | reset hi ctxs wire => exact .inr (.inr ⟨_, _, hi, sent_of_reset ctxs wire⟩)

end Sys2Proof.Proofs
end

section
/-! PROOFS. The engine's invariant: every command, every access and every kind of step keeps it; and what follows from it for an engine
without the privilege (R174, R178). -/

namespace Sys2Proof.Machine

/-! ### A good context -/

/-- The classifier has no result numbered 3 (R141). -/
theorem Classification.code_ne_three (r : Classification) : r.code ≠ 3 := by cases r <;> decide

section
variable {par : Params} {priv : Bool} {x : Ctx} (hx : x.Good par priv)
include hx

/-- A completion code is no part of the invariant. -/
theorem Ctx.Good.complete (cc : Completion) : (x.complete cc).Good par priv := { hx with }

/-- Nor is the word that `CMD` holds. -/
theorem Ctx.Good.setCmd (w : Word) : ({ x with cmd := w } : Ctx).Good par priv := { hx with }

/-- `FATAL` may be set where the privilege is wanting (R151). -/
theorem Ctx.Good.raiseNoPriv (hpriv : priv = false) : x.raiseNoPriv.Good par priv := { hx with fatalNoPriv := fun _ => hpriv }

/-- A slot may be emptied at any time. -/
theorem Ctx.Good.emptySlot : ({ x with slot := none } : Ctx).Good par priv := { hx with slotOpen := nofun }

/-- A byte string written inside `BUF` keeps its canonical form. -/
theorem Ctx.Good.memWrite {a : Nat} {b : List Byte} (hfits : a + b.length ≤ par.bufCap) : (x.memWrite a b).Good par priv :=
  { hx with bufWf := Memory.writeBytes_wf b hx.bufWf hfits }

/-- The registers a host writes are no part of the invariant. -/
theorem Ctx.Good.setReg (v : Word) (r : Reg) : (x.setReg v r).Good par priv where
  bufWf := by rw [Ctx.setReg_buf]; exact hx.bufWf
  pktWf := by rw [Ctx.setReg_pkt]; exact hx.pktWf
  pktCells := by rw [Ctx.setReg_pkt, Ctx.setReg_pktLen]; exact hx.pktCells
  pktHead := by rw [Ctx.setReg_pktLen, Ctx.setReg_fvalid]; exact hx.pktHead
  clsLegal := by rw [Ctx.setReg_resCls]; exact hx.clsLegal
  openPriv := by rw [Ctx.setReg_txen]; exact hx.openPriv
  fatalNoPriv := by rw [Ctx.setReg_fatal]; exact hx.fatalNoPriv
  slotOpen := by rw [Ctx.setReg_slot, Ctx.setReg_txen, Ctx.setReg_pktLen]; exact hx.slotOpen

/-- `FINIT` only sets `FVALID` of what the invariant speaks of. -/
theorem Ctx.Good.loadFactory : (x.loadFactory par).Good par priv :=
  { hx with pktHead := hx.pktHead.imp_right fun ⟨hlen, _⟩ => ⟨hlen, rfl⟩ }

/-- The packet of a `GEN` that passed its checks fills `PKT` up to its new length, of at least 40 bytes (R128). -/
theorem Ctx.Good.genPacket (hvalid : x.fvalid = true) (hlong : x.argLen.toNat ≤ 65495) :
    (x.genPacket par x.operand).Good par priv := by
  have hpkt : (x.genPacket par x.operand).pkt = Memory.ofBytes 0 (x.genBytes par) := rfl
  have hlen : (x.genPacket par x.operand).pktLen.toNat = (x.genBytes par).length := by
    rw [Ctx.genPacket_pktLen, x.length_operand, toNat_packetLength hlong, x.length_genBytes]
  have hbytes : 40 ≤ (x.genBytes par).length ∧ (x.genBytes par).length ≤ Config.pktCap := by
    rw [x.length_genBytes, Config.pktCap]
    omega
  obtain ⟨hhead, hcap⟩ := hbytes
  exact { hx with
    pktWf := Memory.ofBytes_wf _ hcap
    pktCells := fun i => by
      rw [hlen, hpkt, Memory.read_ofBytes, if_pos (Nat.zero_le i), Nat.sub_zero]
      simp
    pktHead := .inr ⟨hlen ▸ hhead, hvalid⟩
    slotOpen := fun p hp => by
      obtain ⟨hwf, hopen, -⟩ := hx.slotOpen p hp
      exact ⟨hwf, hopen, Ctx.pktLen_eq_zero_iff.not.mpr (by omega)⟩ }

/-- `ICLS` with a result. -/
theorem Ctx.Good.classified (r : Classification) : ({ x with resCls := r.code } : Ctx).Good par priv :=
  { hx with clsLegal := r.code_ne_three }

/-- `TXOPEN` under the privilege. -/
theorem Ctx.Good.opened (hpriv : priv = true) : ({ x with txen := true } : Ctx).Good par priv :=
  { hx with
    openPriv := fun _ => hpriv
    slotOpen := fun p hp => by
      obtain ⟨hwf, -, hlen⟩ := hx.slotOpen p hp
      exact ⟨hwf, rfl, hlen⟩ }

/-- `TX` of a packet on an open path: the slot gets a whole packet (R152). -/
theorem Ctx.Good.handedOver (hopen : x.txen = true) (hlen : x.pktLen ≠ 0) :
    ({ x with slot := some { dst := x.txDst, len := x.pktLen, bytes := x.packet } } : Ctx).Good par priv := by
  obtain ⟨hhead, -⟩ := hx.pktHead.resolve_left hlen
  refine { hx with slotOpen := fun p hp => ?_ }
  cases hp
  exact ⟨by simp [Slot.wf, hhead], hopen, hlen⟩

/-- A command that is done makes a good context of a good one. -/
theorem Ctx.Good.done {i : Instr} {y : Ctx} (h : Done par priv i x y) : y.Good par priv := by
  cases i with
  | nop => obtain rfl := h; exact hx
  | encIp | encTcp | psh => obtain ⟨hfits, rfl⟩ := h; exact hx.memWrite hfits
  | decIp | decTcp => obtain ⟨-, -, rfl⟩ := h; exact { hx with }
  | csum => obtain ⟨-, rfl⟩ := h; exact { hx with }
  | finit => obtain rfl := h; exact hx.loadFactory
  | gen =>
    obtain ⟨hvalid, -, hlong, rfl⟩ := h
    exact hx.genPacket hvalid hlong
  | icls => obtain ⟨-, r, -, rfl⟩ := h; exact hx.classified r
  | txopen => obtain ⟨hpriv, rfl⟩ := h; exact hx.opened hpriv
  | tx => obtain ⟨-, hopen, hlen, -, rfl⟩ := h; exact hx.handedOver hopen hlen

/-- Every command keeps the invariant of its context, whether it fails or is done. -/
theorem good_effect (i : Instr) : (effect par priv i x).Good par priv := by
  rcases effect_cases par priv i x with ⟨cc, -, -, heff⟩ | ⟨hpriv, -, heff⟩ | ⟨y, heff, hdone⟩
  · rw [heff]
    exact hx.complete cc
  · rw [heff]
    exact hx.raiseNoPriv hpriv
  · rw [heff]
    exact (hx.done hdone).complete .ok

/-- Every command word, legal or not, keeps the invariant of its context. -/
theorem good_wordEffect (w : Word) : (wordEffect par priv w x).Good par priv := by
  rcases wordEffect_cases par priv w x with ⟨i, -, heff⟩ | heff
  · rw [heff]
    exact good_effect hx i
  · rw [heff]
    exact hx.complete .illegal

/-- Every access keeps the invariant of its context. -/
theorem good_accessEffect (a : Access) : (accessEffect par priv a x).1.Good par priv := by
  rcases accessEffect_cases par priv a x with heff | ⟨w, -, heff⟩ | ⟨r, v, -, -, -, heff⟩ | ⟨i, v, hi, -, heff⟩
  · rwa [heff]
  · rw [heff]
    exact good_wordEffect (hx.setCmd w) w
  · rw [heff]
    exact hx.setReg v r
  · rw [heff]
    exact hx.memWrite hi

end

/-- The record of a pending packet of a good context is a good record (R68, R69). -/
theorem wf_record {par : Params} {priv : Bool} {n c : Nat} {x : Ctx} {p : Slot} (hc : c < n) (hx : x.Good par priv)
    (hp : x.slot = some p) : WireRecord.wf n { ctx := c, dst := p.dst, dport := 0, bytes := p.bytes } = true := by
  obtain ⟨hwf, -, -⟩ := hx.slotOpen p hp
  have hlen := p.len.isLt
  simp only [Slot.wf, Bool.and_eq_true, decide_eq_true_eq] at hwf
  obtain ⟨hbytes, hhead⟩ := hwf
  have hcap : p.bytes.length ≤ Config.pktCap := by
    unfold Config.pktCap
    omega
  simp [WireRecord.wf, hc, hhead, hcap]

/-! ### A good state -/

section
variable {s t : State} (hs : s.Good) (h : step s = .next t)
include hs h

/-- Every step keeps the invariant of every context. -/
theorem State.Good.ctxGood_of_step : ∀ y ∈ t.ctxs, y.Good t.par t.priv := by
  intro y hy
  rw [par_of_step h]
  cases kind_of_step h with
  | rest ctxs _ priv =>
    rw [priv]
    exact hs.ctxGood y (ctxs ▸ hy)
  | access _ hx ctxs _ priv =>
    rw [priv]
    rcases List.mem_or_eq_of_mem_set (ctxs ▸ hy) with hold | rfl
    · exact hs.ctxGood y hold
    · exact good_accessEffect (hs.ctxGood _ (List.mem_of_getElem? hx)) _
  | emission hx _ ctxs _ priv =>
    rw [priv]
    rcases List.mem_or_eq_of_mem_set (ctxs ▸ hy) with hold | rfl
    · exact hs.ctxGood y hold
    · exact (hs.ctxGood _ (List.mem_of_getElem? hx)).emptySlot
  | reset _ ctxs => exact good_of_mem_resetCtxs (ctxs ▸ hy) s.par t.priv

/-- Every step keeps the records of `WIRE` good: only an emission adds one. -/
theorem State.Good.wireGood_of_step : ∀ r ∈ t.wire, r.wf t.ctxs.length = true := by
  intro r hr
  rw [length_ctxs_of_step h]
  cases kind_of_step h with
  | rest _ wire => exact hs.wireGood r (wire ▸ hr)
  | access _ _ _ wire => exact hs.wireGood r (wire ▸ hr)
  | reset _ _ wire => exact hs.wireGood r (wire ▸ hr)
  | emission hx hp _ wire =>
    obtain ⟨hc, -⟩ := List.getElem?_eq_some_iff.mp hx
    rw [wire] at hr
    rcases List.mem_append.mp hr with hold | hnew
    · exact hs.wireGood r hold
    · obtain rfl := List.mem_singleton.mp hnew
      exact wf_record hc (hs.ctxGood _ (List.mem_of_getElem? hx)) hp

/-- Every step keeps the invariant of the engine. -/
theorem good_of_step : t.Good :=
  ⟨(length_ctxs_of_step h).symm ▸ hs.someCtx, hs.ctxGood_of_step h, hs.wireGood_of_step h⟩

/-- Without the privilege no path is open, so no slot is valid and nothing is emitted. -/
theorem State.Good.wire_of_step_of_not_priv (hpriv : s.priv = false) : t.wire = s.wire := by
  cases kind_of_step h with
  | rest _ wire => exact wire
  | access _ _ _ wire => exact wire
  | reset _ _ wire => exact wire
  | emission hx hp =>
    have hgood := hs.ctxGood _ (List.mem_of_getElem? hx)
    obtain ⟨-, hopen, -⟩ := hgood.slotOpen _ hp
    exact absurd (hgood.openPriv hopen) (by simp [hpriv])

end

/-- Without the privilege, a run without a reset emits nothing. -/
theorem wire_of_run_of_not_priv {s t : State} {k : Nat} (hs : s.Good) (hpriv : s.priv = false)
    (hreset : ∀ p, Input.reset p ∉ s.inputs) (h : core.run k s = .next t) : t.wire = s.wire := by
  induction k generalizing s with
  | zero => cases h; rfl
  | succ k ih =>
    obtain ⟨u, hstep, hrun⟩ := exists_step_of_core_run_succ (M := core) h
    have hnoReset : ∀ g rest, s.inputs ≠ .reset g :: rest := fun g rest hi => hreset g (hi ▸ List.mem_cons_self)
    have hprivU : u.priv = false := (priv_of_step hstep hnoReset).trans hpriv
    have hresetU : ∀ p, Input.reset p ∉ u.inputs := fun p hp =>
      hreset p (List.mem_of_mem_tail (inputs_of_step hstep ▸ hp))
    exact (ih (good_of_step hs hstep) hprivU hresetU hrun).trans (hs.wire_of_step_of_not_priv hstep hpriv)

/-! ### A safe run -/

/-- A step of a safe state answers a next state. -/
theorem exists_step_of_safe {s : State} (h : s.safe = true) : ∃ t, step s = .next t := by
  unfold step
  cases hi : s.inputs with
  | nil => exact ⟨_, rfl⟩
  | cons i rest =>
    cases i with
    | arb c => exact ⟨_, rfl⟩
    | reset g => exact ⟨_, rfl⟩
    | host c a =>
      have hc : c < s.ctxs.length := by simpa [Input.named] using List.all_eq_true.mp h (.host c a) (by simp [hi])
      exact ⟨_, hostAccess_of_some (s := { s with inputs := rest }) (List.getElem?_eq_getElem hc) a⟩

/-- A step of a safe state answers a safe one: the inputs left are among those there were, and so are the contexts. -/
theorem safe_of_step {s t : State} (hs : s.safe = true) (h : step s = .next t) : t.safe = true := by
  rw [State.safe, List.all_eq_true] at hs ⊢
  intro i hi
  rw [length_ctxs_of_step h]
  exact hs i (List.mem_of_mem_tail (inputs_of_step h ▸ hi))

/-- A safe run answers a next state. -/
theorem exists_run_of_safe {s : State} (h : s.safe = true) (k : Nat) : ∃ t, core.run k s = .next t := by
  induction k generalizing s with
  | zero => exact ⟨s, rfl⟩
  | succ k ih =>
    obtain ⟨u, hstep⟩ := exists_step_of_safe h
    obtain ⟨t, hrun⟩ := ih (safe_of_step h hstep)
    exact ⟨t, (run_succ_of_step hstep k).trans hrun⟩

end Sys2Proof.Machine

namespace Sys2Proof.Proofs

open Sys2Proof.Machine

/-- Settles O47: commands, register writes and byte writes keep a context good, emissions the records, resets both. -/
theorem everyStepKeepsTheInvariant : Obligations.EveryStepKeepsTheInvariant := by
  unfold Obligations.EveryStepKeepsTheInvariant
  exact fun s t hs h => good_of_step hs h

/-- Settles O46, by induction on the length of the run: the invariant and `PRIV` = 0 are kept, and in such a state no slot is valid. -/
theorem nothingIsSentWithoutPrivilege : Obligations.NothingIsSentWithoutPrivilege := by
  unfold Obligations.NothingIsSentWithoutPrivilege
  exact fun s t k hs hpriv hreset h => wire_of_run_of_not_priv hs hpriv hreset h

/-- Settles O49, by induction on the length of the run. -/
theorem safeRunsNeverStop : Obligations.SafeRunsNeverStop := by
  unfold Obligations.SafeRunsNeverStop
  exact fun s k h => exists_run_of_safe h k

end Sys2Proof.Proofs
end

section
/-! PROOFS. The arbiter (R153): its picks from the list of inputs, its own picks once no input is left, quiescence (R210), and that it
empties every slot (R154). -/

namespace Sys2Proof.Machine

open Sys2Proof.Spec

/-! ### One arbiter step -/

/-- An arbiter input is taken off the list and the arbiter serves the picked context. -/
theorem step_of_arb {s : State} {c : Nat} {rest : List Input} (hi : s.inputs = .arb c :: rest) :
    step s = .next ({ s with inputs := rest }.arbiter c) := by
  rw [step, hi]
  rfl

/-- Where no input is left the engine idles. -/
theorem step_of_nil {s : State} (hi : s.inputs = []) : step s = .next s.idle := by
  rw [step, hi]

/-- The arbiter does nothing where the picked slot is not valid. -/
theorem State.arbiter_of_none {s : State} {c : Nat} {x : Ctx} (h : s.ctxs[c]? = some x) (hp : x.slot = none) : s.arbiter c = s := by
  rw [State.arbiter, h]
  simp only [hp]

/-- The arbiter does nothing where no slot is valid, whatever it is told to pick. -/
theorem State.arbiter_of_no_slot {s : State} (h : ∀ x ∈ s.ctxs, x.slot = none) (c : Nat) : s.arbiter c = s := by
  rcases s.arbiter_cases c with harb | ⟨x, p, hx, hp, -⟩
  · exact harb
  · rw [h x (List.mem_of_getElem? hx)] at hp
    cases hp

/-- Nor does the idle engine. -/
theorem State.idle_of_no_slot {s : State} (h : ∀ x ∈ s.ctxs, x.slot = none) : s.idle = s := by
  rcases s.idle_cases with ⟨-, hidle⟩ | ⟨c, x, p, -, hx, hp, -⟩
  · exact hidle
  · rw [h x (List.mem_of_getElem? hx)] at hp
    cases hp

/-- With no input left and a slot valid, the step is the emission of some pending packet. -/
theorem step_of_pending {s : State} (hi : s.inputs = []) {x : Ctx} (hx : x ∈ s.ctxs) (hslot : x.slot ≠ none) :
    ∃ (c : Nat) (y : Ctx) (p : Slot), s.ctxs[c]? = some y ∧ y.slot = some p ∧
      step s = .next { s.emitPacket c y p with picks := s.picks + 1 } := by
  rcases s.idle_cases with ⟨hnone, -⟩ | ⟨c, y, p, -, hy, hp, hidle⟩
  · exact absurd (State.pending_eq_nil.mp hnone x hx) hslot
  · exact ⟨c, y, p, hy, hp, by rw [step_of_nil hi, hidle]⟩

/-! ### Quiescence -/

/-- No access is left in this run exactly when every access to come stands behind a reset (R210). -/
theorem accessLeft_eq_false_iff {l : List Input} :
    accessLeft l = false ↔ ∀ pre c a rest, l = pre ++ .host c a :: rest → ∃ p, Input.reset p ∈ pre := by
  induction l with
  | nil => simp
  | cons i l ih =>
    cases i with
    | host c a =>
      refine ⟨nofun, fun h => ?_⟩
      obtain ⟨p, hp⟩ := h [] c a l rfl
      cases hp
    | arb d =>
      rw [accessLeft_arb, ih]
      constructor
      · rintro h (- | ⟨j, pre⟩) c a rest he
        · cases he
        · obtain ⟨-, htail⟩ := List.cons_eq_cons.mp he
          obtain ⟨p, hp⟩ := h pre c a rest htail
          exact ⟨p, List.mem_cons_of_mem j hp⟩
      · intro h pre c a rest he
        obtain ⟨p, hp⟩ := h (.arb d :: pre) c a rest (by rw [he, List.cons_append])
        exact ⟨p, by simpa using hp⟩
    | reset g =>
      refine ⟨fun _ => ?_, fun _ => rfl⟩
      rintro (- | ⟨j, pre⟩) c a rest he
      · cases he
      · obtain ⟨rfl, -⟩ := List.cons_eq_cons.mp he
        exact ⟨g, List.mem_cons_self⟩

/-- A step of a quiescent engine that is no reset at most takes an arbiter input off the list. -/
theorem step_of_quiescent {s : State} (hs : s.quiescent = true) (hreset : ∀ p rest, s.inputs ≠ .reset p :: rest) :
    step s = .next { s with inputs := s.inputs.tail } ∧ accessLeft s.inputs.tail = false := by
  obtain ⟨haccess, hslot⟩ := State.quiescent_eq_true.mp hs
  cases hi : s.inputs with
  | nil =>
    have hself : { s with inputs := [] } = s := by rw [← hi]
    exact ⟨by rw [step_of_nil hi, State.idle_of_no_slot hslot, List.tail_nil, hself], rfl⟩
  | cons i rest =>
    rw [hi] at haccess
    cases i with
    | host c a => cases haccess
    | arb c => exact ⟨by rw [step_of_arb hi, State.arbiter_of_no_slot (s := { s with inputs := rest }) hslot, List.tail_cons], haccess⟩
    | reset g => exact absurd hi (hreset g rest)

/-! ### The packets owed -/

/-- The record of the packet `p` of context `c`. -/
def recordOf (c : Nat) (p : Slot) : WireRecord := { ctx := c, dst := p.dst, dport := 0, bytes := p.bytes }

/-- One record is owed for each valid slot. -/
theorem length_owed (c : Nat) (xs : List Ctx) : (owed c xs).length = xs.countP fun x => x.slot.isSome := by
  induction xs generalizing c with
  | nil => rfl
  | cons x xs ih =>
    rw [owed, List.length_append, ih, List.countP_cons, Nat.add_comm]
    cases x.slot <;> rfl

/-- Emptying a valid slot takes its record, and no other, from what is owed. -/
theorem owed_perm_of_emission {xs : List Ctx} {c : Nat} {x : Ctx} {p : Slot} (hx : xs[c]? = some x) (hp : x.slot = some p) (b : Nat) :
    (owed b xs).Perm (recordOf (b + c) p :: owed b (xs.set c { x with slot := none })) := by
  induction xs generalizing b c with
  | nil => cases hx
  | cons y ys ih =>
    cases c with
    | zero =>
      cases hx
      rw [List.set_cons_zero, owed, owed, hp]
      exact .refl _
    | succ c =>
      have hrest := ih hx (b + 1)
      rw [Nat.add_right_comm] at hrest
      rw [List.set_cons_succ, owed, owed]
      exact (hrest.append_left _).trans List.perm_middle

/-- With no input left, as many steps as there are records owed emit them all, in the order of the picks. -/
theorem run_emits_owed {n : Nat} {s : State} (hi : s.inputs = []) (hn : (owed 0 s.ctxs).length = n) :
    ∃ t, core.run n s = .next t ∧ (∀ x ∈ t.ctxs, x.slot = none) ∧ ∃ l, t.wire = s.wire ++ l ∧ l.Perm (owed 0 s.ctxs) := by
  induction n generalizing s with
  | zero =>
    have hnone : ∀ x ∈ s.ctxs, x.slot = none := by simpa [length_owed] using hn
    exact ⟨s, rfl, hnone, [], by simp, by rw [List.length_eq_zero_iff.mp hn]⟩
  | succ n ih =>
    obtain ⟨x, hx, hslot⟩ : ∃ x ∈ s.ctxs, x.slot ≠ none := by
      have hpos : 0 < s.ctxs.countP fun x => x.slot.isSome := by rw [← length_owed 0, hn]; exact Nat.succ_pos n
      simpa [List.countP_pos_iff, Option.isSome_iff_ne_none] using hpos
    obtain ⟨c, y, p, hy, hp, hstep⟩ := step_of_pending hi hx hslot
    have hperm := owed_perm_of_emission hy hp 0
    rw [Nat.zero_add] at hperm
    have hn' : (owed 0 (s.ctxs.set c { y with slot := none })).length = n := by
      have := hperm.length_eq
      rw [hn, List.length_cons] at this
      omega
    obtain ⟨t, hrun, hnone, l, hwire, hl⟩ := ih (s := { s.emitPacket c y p with picks := s.picks + 1 }) hi hn'
    refine ⟨t, (run_succ_of_step hstep n).trans hrun, hnone, recordOf c p :: l, ?_, (hl.cons _).trans hperm.symm⟩
    rw [hwire]
    exact List.append_assoc _ _ _

end Sys2Proof.Machine

namespace Sys2Proof.Proofs

open Sys2Proof.Machine

/-- Settles O37: the arbiter emits the packet of the picked slot, or finds none. -/
theorem arbiterEmitsThePickedPacket : Obligations.ArbiterEmitsThePickedPacket := by
  unfold Obligations.ArbiterEmitsThePickedPacket
  intro s c rest x hi hx
  have hx' : ({ s with inputs := rest } : State).ctxs[c]? = some x := hx
  rw [step_of_arb hi]
  constructor
  · intro p hp
    rw [State.arbiter_of_some hx' hp]
    rfl
  · intro hp
    rw [State.arbiter_of_none hx' hp]

/-- Settles O38: whatever its pick, the idle engine serves a pending context, and does nothing where there is none. -/
theorem idleArbiterServesAPendingContext : Obligations.IdleArbiterServesAPendingContext := by
  unfold Obligations.IdleArbiterServesAPendingContext
  intro s hi
  constructor
  · rintro ⟨c, x, hx, hslot⟩
    exact step_of_pending hi (List.mem_of_getElem? hx) hslot
  · intro hnone
    have hslot : ∀ x ∈ s.ctxs, x.slot = none := fun x hx => by
      obtain ⟨c, hc⟩ := List.mem_iff_getElem?.mp hx
      exact hnone c x hc
    rw [step_of_nil hi, State.idle_of_no_slot hslot]

/-- Settles O39: quiescence read off the list of inputs; a step from it at most takes an arbiter input off that list. -/
theorem quiescentEngineRests : Obligations.QuiescentEngineRests := by
  unfold Obligations.QuiescentEngineRests
  constructor
  · intro s
    rw [State.quiescent_eq_true, accessLeft_eq_false_iff]
  · intro s t hs h hreset
    obtain ⟨hstep, haccess⟩ := step_of_quiescent hs hreset
    obtain ⟨-, hslot⟩ := State.quiescent_eq_true.mp hs
    cases h.symm.trans hstep
    exact ⟨rfl, rfl, rfl, State.quiescent_eq_true.mpr ⟨haccess, hslot⟩⟩

/-- Settles O40: there are as many records owed as slots valid, and each step of the idle engine emits one of them. -/
theorem everyPendingPacketIsEmitted : Obligations.EveryPendingPacketIsEmitted := by
  unfold Obligations.EveryPendingPacketIsEmitted
  exact fun s hi => run_emits_owed hi (length_owed 0 s.ctxs)

end Sys2Proof.Proofs
end
